-- ==== Sys2Proof/Word.lean ====
section
/-! DEFINITION. The word of the machine and the operand fields of an instruction word (R9, R111, R112). -/

namespace Sys2Proof

/-- R9, R14: a word is a 16-bit unsigned value, bit 15 the most significant. -/
abbrev Word := BitVec 16

/-- One stored byte of Memory (half a word; the hardware has no bytes, see assumption 1). -/
abbrev Byte := BitVec 8

/-- R111: the 12-bit operand field `x` of format A, 0..4095. -/
abbrev Field12 := BitVec 12

/-- R112: the 8-bit operand field `y` of format S, 0..255. -/
abbrev Field8 := BitVec 8

end Sys2Proof
end

