-- ==== Sys2Proof/Syntax.lean ====
section
/-! DEFINITION. The 24 instructions of spec/opcode_table.json, one constructor per row, in the order of the table. An
operand is the unsigned field the instruction word carries (R114): the type of each operand admits exactly the values
the encoding admits. The `Unknown` words of R118 are no row of the table and no instruction (assumption 17). -/

namespace Sys2Proof

inductive Instr where
  /-- R160: `AC <- Mem[x]`. -/
  | lodd (x : Field12)
  /-- R161: `Mem[x] <- AC`. -/
  | stod (x : Field12)
  /-- R162: `AC <- mask16(AC + Mem[x])`. -/
  | addd (x : Field12)
  /-- R163: `AC <- mask16(AC - Mem[x])`. -/
  | subd (x : Field12)
  /-- R180: jump if `signed(AC) >= 0`. -/
  | jpos (x : Field12)
  /-- R181: jump if `AC = 0`. -/
  | jzer (x : Field12)
  /-- R182: jump. -/
  | jump (x : Field12)
  /-- R164: `AC <- x`. -/
  | loco (x : Field12)
  /-- R170: `AC <- Mem[mask16(SP + x)]`. -/
  | lodl (x : Field12)
  /-- R171: `Mem[mask16(SP + x)] <- AC`. -/
  | stol (x : Field12)
  /-- R172: `AC <- mask16(AC + Mem[mask16(SP + x)])`. -/
  | addl (x : Field12)
  /-- R173: `AC <- mask16(AC - Mem[mask16(SP + x)])`. -/
  | subl (x : Field12)
  /-- R183: jump if `signed(AC) < 0`. -/
  | jneg (x : Field12)
  /-- R184: jump if `AC != 0`. -/
  | jnze (x : Field12)
  /-- R190: push `PC`, jump. -/
  | call (x : Field12)
  /-- R205: `SP <- mask16(SP + y)`. -/
  | insp (y : Field8)
  /-- R206: `SP <- mask16(SP - y)`. -/
  | desp (y : Field8)
  /-- R200: push `Mem[AC]`. -/
  | pshi
  /-- R201: pop into `Mem[AC]`. -/
  | popi
  /-- R202: push `AC`. -/
  | push
  /-- R203: pop into `AC`. -/
  | pop
  /-- R191: pop into `PC`. -/
  | retn
  /-- R204: exchange `AC` and `SP`. -/
  | swap
  /-- R210: stop. -/
  | halt
deriving DecidableEq, Repr

end Sys2Proof
end

