-- ==== Sys2Proof/Decode.lean ====
section
/-! DEFINITION. Decoding (R115 to R118), total on every 16-bit word and rejecting by name, and the encoder (R121) written
from the same tables. -/

namespace Sys2Proof

/-- Why a word is no instruction. R118, R119: the one reason is the unknown extended word. -/
inductive DecodeReject where
  /-- R118: a word of the extended group that matches none of its nine patterns. -/
  | unknown (w : Word)
deriving DecidableEq, Repr

/-- R14: the primary opcode `w[15:12]`. -/
def opField (w : Word) : BitVec 4 := w.extractLsb' 12 4

/-- R111: the operand `x = w[11:0]`. -/
def xField (w : Word) : Field12 := w.extractLsb' 0 12

/-- R112: the upper byte `w[15:8]`. -/
def upperByte (w : Word) : BitVec 8 := w.extractLsb' 8 8

/-- R112: the operand `y = w[7:0]`. -/
def yField (w : Word) : Field8 := w.extractLsb' 0 8

/-- R115, R117: the extended group, `w[15:12] = 0b1111`. -/
def decodeExtended (w : Word) : Except DecodeReject Instr :=
  if upperByte w = 0xFC then .ok (.insp (yField w))
  else if upperByte w = 0xFE then .ok (.desp (yField w))
  else if w = 0xF000 then .ok .pshi
  else if w = 0xF200 then .ok .popi
  else if w = 0xF400 then .ok .push
  else if w = 0xF600 then .ok .pop
  else if w = 0xF800 then .ok .retn
  else if w = 0xFA00 then .ok .swap
  else if w = 0xFFFF then .ok .halt
  else .error (.unknown w)

/-- R116: the primary opcode map, `PRIMARY[op]` with operand `x`; none for the extended group, `op = 15`. -/
def primary (op : BitVec 4) (x : Field12) : Option Instr :=
  match op.toNat with
  | 0 => some (.lodd x)
  | 1 => some (.stod x)
  | 2 => some (.addd x)
  | 3 => some (.subd x)
  | 4 => some (.jpos x)
  | 5 => some (.jzer x)
  | 6 => some (.jump x)
  | 7 => some (.loco x)
  | 8 => some (.lodl x)
  | 9 => some (.stol x)
  | 10 => some (.addl x)
  | 11 => some (.subl x)
  | 12 => some (.jneg x)
  | 13 => some (.jnze x)
  | 14 => some (.call x)
  | _ => none

/-- R115: decoding of a fetched word. -/
def decode (w : Word) : Except DecodeReject Instr :=
  match primary (opField w) (xField w) with
  | some i => .ok i
  | none => decodeExtended w

/-- The table's numbering of bits is the word's own (R9, R110: one 16-bit word, bit 0 the least significant). -/
def decodeTableWord (nbits w : Nat) : Option Instr :=
  match decode (BitVec.ofNat 16 (w % 2 ^ nbits)) with
  | .ok i => some i
  | .error _ => none

/-- R121: the word of an instruction, its base opcode with the operand in the bits the base leaves 0. -/
def encode : Instr → Word
  | .lodd x => 0x0#4 ++ x
  | .stod x => 0x1#4 ++ x
  | .addd x => 0x2#4 ++ x
  | .subd x => 0x3#4 ++ x
  | .jpos x => 0x4#4 ++ x
  | .jzer x => 0x5#4 ++ x
  | .jump x => 0x6#4 ++ x
  | .loco x => 0x7#4 ++ x
  | .lodl x => 0x8#4 ++ x
  | .stol x => 0x9#4 ++ x
  | .addl x => 0xA#4 ++ x
  | .subl x => 0xB#4 ++ x
  | .jneg x => 0xC#4 ++ x
  | .jnze x => 0xD#4 ++ x
  | .call x => 0xE#4 ++ x
  | .insp y => 0xFC#8 ++ y
  | .desp y => 0xFE#8 ++ y
  | .pshi => 0xF000#16
  | .popi => 0xF200#16
  | .push => 0xF400#16
  | .pop => 0xF600#16
  | .retn => 0xF800#16
  | .swap => 0xFA00#16
  | .halt => 0xFFFF#16

/-- One row of spec/opcode_table.json: the fixed bits of an instruction word. -/
structure OpcodeRow where
  fixedBits : Word
  mask      : Word
deriving DecidableEq, Repr

/-- The `match` and `mask` of each row of spec/opcode_table.json, by constructor. -/
def Instr.row : Instr → OpcodeRow
  | .lodd _ => ⟨0x0000, 0xF000⟩
  | .stod _ => ⟨0x1000, 0xF000⟩
  | .addd _ => ⟨0x2000, 0xF000⟩
  | .subd _ => ⟨0x3000, 0xF000⟩
  | .jpos _ => ⟨0x4000, 0xF000⟩
  | .jzer _ => ⟨0x5000, 0xF000⟩
  | .jump _ => ⟨0x6000, 0xF000⟩
  | .loco _ => ⟨0x7000, 0xF000⟩
  | .lodl _ => ⟨0x8000, 0xF000⟩
  | .stol _ => ⟨0x9000, 0xF000⟩
  | .addl _ => ⟨0xA000, 0xF000⟩
  | .subl _ => ⟨0xB000, 0xF000⟩
  | .jneg _ => ⟨0xC000, 0xF000⟩
  | .jnze _ => ⟨0xD000, 0xF000⟩
  | .call _ => ⟨0xE000, 0xF000⟩
  | .insp _ => ⟨0xFC00, 0xFF00⟩
  | .desp _ => ⟨0xFE00, 0xFF00⟩
  | .pshi => ⟨0xF000, 0xFFFF⟩
  | .popi => ⟨0xF200, 0xFFFF⟩
  | .push => ⟨0xF400, 0xFFFF⟩
  | .pop => ⟨0xF600, 0xFFFF⟩
  | .retn => ⟨0xF800, 0xFFFF⟩
  | .swap => ⟨0xFA00, 0xFFFF⟩
  | .halt => ⟨0xFFFF, 0xFFFF⟩

end Sys2Proof
end

