-- ==== Sys2Proof/Config.lean ====
section
/-! DEFINITION. The implementation parameters of R5: the fixed sizes, the cache geometry and its defaults, and the
parameters of the assembler. -/

namespace Sys2Proof

/-- R5 `MEM_WORDS`: Memory has 4096 words, addresses 0..4095. -/
def memWords : Nat := 4096

/-- R5 `SP_RESET`. -/
def spReset : Word := 4095

/-- R5: the load address of a program. -/
def loadAddress : Nat := 0

/-- R5: the two sizes of one cache instance, `N` lines of `K` words. -/
structure CacheParams where
  lineCount : Nat
  blockSize : Nat
deriving DecidableEq, Repr

/-- R5, D5: the sizes of both instances, `IC_N, IC_K, DC_N, DC_K` as four values. -/
structure Config where
  ic : CacheParams
  dc : CacheParams
deriving DecidableEq, Repr

/-- R5: `N` is 8 by default. -/
def defaultLineCount : Nat := 8

/-- R5: `K` is 4 by default. -/
def defaultBlockSize : Nat := 4

/-- R5, D5: both instances take the one pair of defaults. -/
def Config.default : Config :=
  { ic := { lineCount := defaultLineCount, blockSize := defaultBlockSize }
    dc := { lineCount := defaultLineCount, blockSize := defaultBlockSize } }

/-- R5 `INT_SYNTAX`, D13: the default admits decimal and `0x` hexadecimal with an optional `-`; the strict reading
admits unsigned decimal only. -/
inductive IntSyntax where
  | decimalAndHex
  | unsignedDecimal
deriving DecidableEq, Repr

/-- R5: the parameters of the assembler that have more than one stated value. `DUP_LABEL_POLICY` is `last_wins`
(R231), `MNEMONIC_CASE` is exact upper case (R227). -/
structure AsmParams where
  /-- R224: `COMMENT_MARKER`. -/
  commentMarker : Char
  /-- R228: `INT_SYNTAX`. -/
  intSyntax     : IntSyntax
deriving DecidableEq, Repr

/-- R5: the spec's defaults. -/
def AsmParams.default : AsmParams :=
  { commentMarker := ';', intSyntax := .decimalAndHex }

/-- R225: `LABEL_DELIM`. -/
def labelDelim : Char := ':'

end Sys2Proof
end

