-- ==== Sys2Proof/Machine/State.lean ====
section
/-! DEFINITION. The whole state of the machine (R7, R20 to R41), as plain data, its reset value, and the two reason types. -/

namespace Sys2Proof.Machine

/-- R20: the names of the thirteen registers. -/
inductive RegName where
  | pc | ac | sp | ir | tir | mar | mbr | a | b | c | d | e | f
deriving DecidableEq, Repr

/-- R30: Memory, stored as bytes: cells at strictly rising byte addresses, none equal to what an unlisted address reads
as (assumption 1). The word at word address `w` is held at byte addresses `2w` (low byte) and `2w + 1` (high byte). -/
abbrev Memory := List Host.Cell

/-- R32: one cache line. -/
structure CacheLine where
  valid : Bool
  tag   : Nat
  /-- R32: reserved, unused under write-through; no rule sets it. -/
  dirty : Bool
  block : List Word
deriving DecidableEq, Repr

/-- R34: one entry of a cache's event log; its text is out of scope (R4 (d)), what it reports is kept. -/
inductive CacheEvent where
  /-- R68, R69: `log(c.eventLog, hit, a)`. -/
  | hit (a : Nat)
  /-- R68, R69: `log(c.eventLog, miss, a)`. -/
  | miss (a : Nat)
  /-- R70: the entry of `FlushAll`. -/
  | flush
deriving DecidableEq, Repr

/-- R31: one cache instance. Its `N` is `lines.length`, its `K` is `blockSize`. -/
structure Cache where
  lines     : List CacheLine
  blockSize : Nat
  hitCount  : Nat
  missCount : Nat
  eventLog  : List CacheEvent
deriving DecidableEq, Repr

/-- R37: one group of lines of the trace. A group stands for lines whose number and text the spec leaves open
(R4 (d), D8; assumption 8). -/
inductive TraceEntry where
  /-- R142, R143: the one or more lines of the instruction cycle that fetched `w` at `addr`. -/
  | cycle (addr : Word) (w : Word)
  /-- R211, R262: the unknown-instruction notice. -/
  | unknownInstruction (w : Word)
  /-- R141, R261: the out-of-range-PC notice. -/
  | pcOutOfRange
deriving DecidableEq, Repr

/-- R7, R20, R28, R30, R31, R37, R38: the whole state. -/
structure State where
  pc       : Word
  ac       : Word
  sp       : Word
  ir       : Word
  tir      : Word
  mar      : Word
  mbr      : Word
  regA     : Word
  regB     : Word
  regC     : Word
  regD     : Word
  regE     : Word
  regF     : Word
  halted   : Bool
  microLog : List TraceEntry
  memory   : Memory
  ic       : Cache
  dc       : Cache
deriving DecidableEq, Repr

/-- R20: the value of a register by its name. -/
def State.reg (s : State) : RegName → Word
  | .pc => s.pc
  | .ac => s.ac
  | .sp => s.sp
  | .ir => s.ir
  | .tir => s.tir
  | .mar => s.mar
  | .mbr => s.mbr
  | .a => s.regA
  | .b => s.regB
  | .c => s.regC
  | .d => s.regD
  | .e => s.regE
  | .f => s.regF

/-- The reasons a step can stop with a fault. There is none: the hardware has no trap and no arm of execute can fail
(R144 (e), R263, R264), so nobody raises one. Safe: nothing is stopped that the hardware would go on with. -/
inductive Fault : Type
deriving DecidableEq, Repr

/-- The reasons a step can refuse an instruction. -/
inductive Refusal where
  /-- Raised only by an arm of `exec` whose instruction has no meaning yet (none of them at present). Safe: the machine
  stops where the hardware goes on. -/
  | notModelled (mnemonic : String)
deriving DecidableEq, Repr

/-- R35, D6: an invalid line of `k` words, as `reset()` makes it. -/
def CacheLine.invalid (k : Nat) : CacheLine :=
  { valid := false, tag := 0, dirty := false, block := List.replicate k 0 }

/-- R33, R34, R35: an empty cache of the given sizes. -/
def Cache.empty (p : CacheParams) : Cache :=
  { lines := List.replicate p.lineCount (CacheLine.invalid p.blockSize)
    blockSize := p.blockSize
    hitCount := 0
    missCount := 0
    eventLog := [] }

/-- R41: the reset state of a machine with the given cache sizes. -/
def State.resetWith (cfg : Config) : State :=
  { pc := 0, ac := 0, sp := spReset, ir := 0, tir := 0, mar := 0, mbr := 0
    regA := 0, regB := 0, regC := 0, regD := 0, regE := 0, regF := 0
    halted := false
    microLog := []
    memory := []
    ic := Cache.empty cfg.ic
    dc := Cache.empty cfg.dc }

/-- R41, R300: the machine right after reset, with the default sizes of R5. -/
def State.reset : State := State.resetWith Config.default

end Sys2Proof.Machine
end

