-- ==== Sys2Proof/Machine/Flags.lean ====
section
/-! DEFINITION. Arithmetic and conditions. There are no condition codes (R27): an operation computes no flag, and the
four conditional jumps test the accumulator itself. -/

namespace Sys2Proof.Machine

/-- R10: `mask16(x) = x mod 65536` for any integer `x`, with the floor modulus. -/
def mask16 (x : Int) : Word := BitVec.ofNat 16 (x % 65536).toNat

/-- R10: the 16-bit value read as two's-complement. -/
def signed (v : Word) : Int :=
  if v.toNat ≤ 32767 then (v.toNat : Int) else (v.toNat : Int) - 65536

/-- R162, R172: `mask16(a + b)`; the carry and the signed overflow are lost (R27). -/
def addWord (a b : Word) : Word := mask16 ((a.toNat : Int) + (b.toNat : Int))

/-- R163, R173: `mask16(a - b)`; the borrow is lost (R27). -/
def subWord (a b : Word) : Word := mask16 ((a.toNat : Int) - (b.toNat : Int))

/-- R180: the condition of JPOS, `signed(AC) >= 0`. -/
def condPos (v : Word) : Bool := decide (0 ≤ signed v)

/-- R183: the condition of JNEG, `signed(AC) < 0`. -/
def condNeg (v : Word) : Bool := decide (signed v < 0)

/-- R181: the condition of JZER, `AC = 0`. -/
def condZero (v : Word) : Bool := decide (v.toNat = 0)

/-- R184: the condition of JNZE, `AC != 0`. -/
def condNonZero (v : Word) : Bool := decide (v.toNat ≠ 0)

end Sys2Proof.Machine
end

