-- ==== Sys2Proof/Machine/Operands.lean ====
section
/-! DEFINITION. The operand forms (R114): each is an unsigned field used as it is, never sign-extended or scaled. -/

namespace Sys2Proof.Machine

/-- R114: `x` as an absolute word address (LODD, STOD, ADDD, SUBD). -/
def directAddress (x : Field12) : Word := x.setWidth 16

/-- R114: `x` as an absolute target (the five jumps, CALL). -/
def jumpTarget (x : Field12) : Word := x.setWidth 16

/-- R114, R164: `x` as a constant, zero-extended (LOCO). -/
def constantOperand (x : Field12) : Word := x.setWidth 16

/-- 42_local.md: the effective address `mask16(SP + x)` (LODL, STOL, ADDL, SUBL). -/
def localAddress (s : State) (x : Field12) : Word := addWord s.sp (x.setWidth 16)

/-- R114: `y` as an unsigned amount (INSP, DESP). -/
def stackAmount (y : Field8) : Word := y.setWidth 16

/-- R24, R77: the address a push writes, `mask16(SP - 1)`. -/
def pushAddress (s : State) : Word := subWord s.sp 1

/-- R24: the stack pointer after a pop, `mask16(SP + 1)`. -/
def poppedSp (s : State) : Word := addWord s.sp 1

end Sys2Proof.Machine
end

