-- ==== Sys2Proof/Machine/Ops.lean ====
section
/-! DEFINITION. The named operations: writing a register, the backing Memory (R61, R62), the cache controller (R66 to R70),
the engine's access paths (R73 to R75), the stack, fetch (R142) and the halting transitions (R141, R210). There is no trap
entry and no return from a trap (R268, R269): the only thing a run-time condition does is set `halted`. -/

namespace Sys2Proof.Machine

/-! ## Writing one piece of state -/

def State.setPc (s : State) (v : Word) : State := { s with pc := v }
def State.setAc (s : State) (v : Word) : State := { s with ac := v }
def State.setSp (s : State) (v : Word) : State := { s with sp := v }
def State.setIr (s : State) (v : Word) : State := { s with ir := v }
def State.setMar (s : State) (v : Word) : State := { s with mar := v }
def State.setMbr (s : State) (v : Word) : State := { s with mbr := v }
def State.setHalted (s : State) (v : Bool) : State := { s with halted := v }
def State.setMicroLog (s : State) (v : List TraceEntry) : State := { s with microLog := v }
def State.setMemory (s : State) (v : Memory) : State := { s with memory := v }
def State.setIc (s : State) (v : Cache) : State := { s with ic := v }
def State.setDc (s : State) (v : Cache) : State := { s with dc := v }

/-! ## The backing Memory -/

/-- R30: what a byte of Memory that nothing has written reads as. -/
def Memory.unlisted : Byte := 0

/-- The number of byte addresses Memory is stored at (R60, assumption 1). -/
def memBytes : Nat := 2 * memWords

/-- The canonical form: addresses strictly rising and inside Memory, no entry equal to an unlisted byte. -/
abbrev Memory.wf (m : Memory) : Prop :=
  m.Pairwise (fun p q => p.1 < q.1) ∧ ∀ p ∈ m, p.1 < memBytes ∧ p.2 ≠ Memory.unlisted

/-- The byte stored at a byte address. -/
def readByte : Memory → Nat → Byte
  | [], _ => Memory.unlisted
  | (k, v) :: m, b => if b = k then v else readByte m b

/-- One cell in front of a memory, left out if it holds what an unlisted address reads as. -/
def consCell (b : Nat) (v : Byte) (m : Memory) : Memory :=
  if v = Memory.unlisted then m else (b, v) :: m

/-- Writing one stored byte, keeping the canonical form. -/
def writeByte : Memory → Nat → Byte → Memory
  | [], b, v => consCell b v []
  | (k, w) :: m, b, v =>
    if b < k then consCell b v ((k, w) :: m)
    else if b = k then consCell b v m
    else (k, w) :: writeByte m b v

/-- The word held at word address `a` (assumption 1: low byte first). -/
def loadWord (m : Memory) (a : Nat) : Word :=
  readByte m (2 * a + 1) ++ readByte m (2 * a)

/-- Holding a word at word address `a` (assumption 1: low byte first). -/
def storeWord (m : Memory) (a : Nat) (v : Word) : Memory :=
  writeByte (writeByte m (2 * a) (v.extractLsb' 0 8)) (2 * a + 1) (v.extractLsb' 8 8)

/-- R61: `MemRead(a, 1)`, 0 outside 0..4095. -/
def memRead (m : Memory) (a : Nat) : Word :=
  if a < memWords then loadWord m a else 0

/-- R62: `MemWrite(a, 1, v)`, nothing outside 0..4095. -/
def memWrite (m : Memory) (a : Nat) (v : Word) : Memory :=
  if a < memWords then storeWord m a v else m

/-! ## The cache controller -/

/-- R66: `lineIndex(a) = floor(a/K) mod N`. -/
def Cache.lineIndex (c : Cache) (a : Nat) : Nat := a / c.blockSize % c.lines.length

/-- R66: `tag(a) = floor(a / (K*N))`. -/
def Cache.tagOf (c : Cache) (a : Nat) : Nat := a / (c.blockSize * c.lines.length)

/-- R66: `offset(a) = a mod K`. -/
def Cache.offset (c : Cache) (a : Nat) : Nat := a % c.blockSize

/-- R67: `floor(a / K) * K`, the address the block of `a` starts at. -/
def Cache.blockBase (c : Cache) (a : Nat) : Nat := a / c.blockSize * c.blockSize

/-- R66: the line tested for `a`. (`N >= 1`, so the default is never met; assumption 24.) -/
def Cache.lineAt (c : Cache) (a : Nat) : CacheLine :=
  c.lines.getD (c.lineIndex a) (CacheLine.invalid c.blockSize)

/-- R66: hit iff `valid && tag == tag(a)`. -/
def Cache.isHit (c : Cache) (a : Nat) : Bool :=
  (c.lineAt a).valid && decide ((c.lineAt a).tag = c.tagOf a)

/-- R67: the `K` words of the aligned block of `a`, read from the backing Memory. -/
def Cache.fetchBlock (c : Cache) (m : Memory) (a : Nat) : List Word :=
  (List.range c.blockSize).map fun j => memRead m (c.blockBase a + j)

/-- R67: `Allocate(c, a)`; `dirty` is not touched. -/
def Cache.allocate (c : Cache) (m : Memory) (a : Nat) : Cache :=
  { c with
    lines := c.lines.set (c.lineIndex a)
      { c.lineAt a with valid := true, tag := c.tagOf a, block := c.fetchBlock m a } }

/-- R68, R69: the entry one access appends to the event log. -/
def Cache.logEvent (c : Cache) (e : CacheEvent) : Cache :=
  { c with eventLog := c.eventLog ++ [e] }

/-- R68, R69: the part a read and a write share: the test, the counter, the allocate on a miss, the log entry. -/
def Cache.access (c : Cache) (m : Memory) (a : Nat) : Cache :=
  if c.isHit a then
    Cache.logEvent { c with hitCount := c.hitCount + 1 } (.hit a)
  else
    Cache.logEvent (Cache.allocate { c with missCount := c.missCount + 1 } m a) (.miss a)

/-- R68: `c.lines[lineIndex(a)].block[offset(a)]`. -/
def Cache.wordAt (c : Cache) (a : Nat) : Word := (c.lineAt a).block.getD (c.offset a) 0

/-- R69: `c.lines[lineIndex(a)].block[offset(a)] <- v`. -/
def Cache.setWordAt (c : Cache) (a : Nat) (v : Word) : Cache :=
  { c with
    lines := c.lines.set (c.lineIndex a)
      { c.lineAt a with block := (c.lineAt a).block.set (c.offset a) v } }

/-- R68: `CacheRead(c, a)`: the word and the cache after. -/
def Cache.read (c : Cache) (m : Memory) (a : Nat) : Word × Cache :=
  ((c.access m a).wordAt a, c.access m a)

/-- R69: `CacheWrite(c, a, v)`: the cache and the Memory after. -/
def Cache.write (c : Cache) (m : Memory) (a : Nat) (v : Word) : Cache × Memory :=
  ((c.access m a).setWordAt a v, memWrite m a v)

/-- R70: `FlushAll(c)`, a logged no-op. -/
def Cache.flushAll (c : Cache) : Cache := c.logEvent .flush

/-! ## The engine's access paths -/

/-- R60, R74: an address that names a Memory word. -/
def inRange (a : Word) : Bool := decide (a.toNat < memWords)

/-- R73: `IFetch(a)`, a read through the instruction side. -/
def iFetch (s : State) (a : Word) : Word × State :=
  let r := s.ic.read s.memory a.toNat
  (r.1, s.setIc r.2)

/-- R74: `DRead(a)`; an out-of-range address reads 0 and does not reach the cache (assumption 2). -/
def dRead (s : State) (a : Word) : Word × State :=
  if inRange a then
    let r := s.dc.read s.memory a.toNat
    (r.1, s.setDc r.2)
  else (0, s)

/-- R75: `DWrite(a, v)`; an out-of-range write is dropped (assumption 2). -/
def dWrite (s : State) (a v : Word) : State :=
  if inRange a then
    let r := s.dc.write s.memory a.toNat v
    (s.setDc r.1).setMemory r.2
  else s

/-! ## The stack -/

/-- 45_stack.md, R24: a push, `SP <- mask16(SP - 1)` and then a write at the new `SP`. -/
def pushWord (s : State) (v : Word) : State :=
  let t := s.setSp (pushAddress s)
  dWrite t t.sp v

/-- 45_stack.md, R24: a pop, a read at `SP` and then `SP <- mask16(SP + 1)`. -/
def popWord (s : State) : Word × State :=
  let r := dRead s s.sp
  (r.1, r.2.setSp (poppedSp r.2))

/-! ## Fetch and the halting transitions -/

/-- R142: fetch. The trace of the previous step is replaced by this cycle's group. -/
def fetch (s : State) : State :=
  let s1 := (s.setMicroLog []).setMar s.pc
  let r := iFetch s1 s1.mar
  let s2 := r.2.setMbr r.1
  let s3 := s2.setIr s2.mbr
  (s3.setPc (addWord s3.pc 1)).setMicroLog [.cycle s3.mar s3.ir]

/-- R28: entering the terminal state. -/
def enterHalted (s : State) : State := s.setHalted true

/-- R141: the halting step of a program counter out of range; the trace is replaced by one notice (assumption 9). -/
def haltPcOutOfRange (s : State) : State := (enterHalted s).setMicroLog [.pcOutOfRange]

/-- R210: both caches are flushed, the instruction side first. -/
def flushBoth (s : State) : State :=
  let t := s.setIc s.ic.flushAll
  t.setDc t.dc.flushAll

/-- R211, R262: the notice of an unknown word joins the step's trace. -/
def logUnknown (s : State) (w : Word) : State :=
  s.setMicroLog (s.microLog ++ [.unknownInstruction w])

/-! ## Placing a program (not an operation of the machine) -/

/-- A word put where a fetch from word address `a` finds it: in the instruction side's line if `a` hits there, else in
Memory (and in the data side's copy of it, which never differs from Memory, R83). Assumption 18. -/
def plantWord (s : State) (a : Nat) (v : Word) : State :=
  if s.ic.isHit a then s.setIc (s.ic.setWordAt a v)
  else
    let t := s.setMemory (memWrite s.memory a v)
    if s.dc.isHit a then t.setDc (s.dc.setWordAt a v) else t

end Sys2Proof.Machine
end

