-- ==== Sys2Proof/Machine/CallReturn.lean ====
section
/-! DEFINITION. Subroutine call and return (R190, R191). -/

namespace Sys2Proof.Machine

/-- R190: `SP <- mask16(SP - 1); DWrite(SP, PC); PC <- x`. -/
def execCall (x : Field12) (s : State) : Host.Outcome State Fault Refusal :=
  .next ((pushWord s s.pc).setPc (jumpTarget x))

/-- R191: `PC <- DRead(SP); SP <- mask16(SP + 1)`. -/
def execRetn (s : State) : Host.Outcome State Fault Refusal :=
  let r := popWord s
  .next (r.2.setPc r.1)

end Sys2Proof.Machine
end

