-- ==== Sys2Proof/Machine/Direct.lean ====
section
/-! DEFINITION. Direct-address and constant instructions (R160 to R164). -/

namespace Sys2Proof.Machine

/-- R160: `AC <- DRead(x)`. -/
def execLodd (x : Field12) (s : State) : Host.Outcome State Fault Refusal :=
  let r := dRead s (directAddress x)
  .next (r.2.setAc r.1)

/-- R161: `DWrite(x, AC)`. -/
def execStod (x : Field12) (s : State) : Host.Outcome State Fault Refusal :=
  .next (dWrite s (directAddress x) s.ac)

/-- R162: `AC <- mask16(AC + DRead(x))`. -/
def execAddd (x : Field12) (s : State) : Host.Outcome State Fault Refusal :=
  let r := dRead s (directAddress x)
  .next (r.2.setAc (addWord r.2.ac r.1))

/-- R163: `AC <- mask16(AC - DRead(x))`. -/
def execSubd (x : Field12) (s : State) : Host.Outcome State Fault Refusal :=
  let r := dRead s (directAddress x)
  .next (r.2.setAc (subWord r.2.ac r.1))

/-- R164: `AC <- x`. -/
def execLoco (x : Field12) (s : State) : Host.Outcome State Fault Refusal :=
  .next (s.setAc (constantOperand x))

end Sys2Proof.Machine
end

