-- ==== Sys2Proof/Machine/Jumps.lean ====
section
/-! DEFINITION. Jumps (R180 to R184). The program counter already names the next instruction when a jump executes. -/

namespace Sys2Proof.Machine

/-- `PC <- target` when the condition holds, nothing otherwise. -/
def jumpIf (cond : Bool) (x : Field12) (s : State) : Host.Outcome State Fault Refusal :=
  .next (if cond then s.setPc (jumpTarget x) else s)

/-- R180: `if signed(AC) >= 0 then PC <- x`. -/
def execJpos (x : Field12) (s : State) : Host.Outcome State Fault Refusal :=
  jumpIf (condPos s.ac) x s

/-- R181: `if AC = 0 then PC <- x`. -/
def execJzer (x : Field12) (s : State) : Host.Outcome State Fault Refusal :=
  jumpIf (condZero s.ac) x s

/-- R182: `PC <- x`. -/
def execJump (x : Field12) (s : State) : Host.Outcome State Fault Refusal :=
  .next (s.setPc (jumpTarget x))

/-- R183: `if signed(AC) < 0 then PC <- x`. -/
def execJneg (x : Field12) (s : State) : Host.Outcome State Fault Refusal :=
  jumpIf (condNeg s.ac) x s

/-- R184: `if AC != 0 then PC <- x`. -/
def execJnze (x : Field12) (s : State) : Host.Outcome State Fault Refusal :=
  jumpIf (condNonZero s.ac) x s

end Sys2Proof.Machine
end

