-- ==== Sys2Proof/Machine/Local.lean ====
section
/-! DEFINITION. Stack-relative instructions (R170 to R173). -/

namespace Sys2Proof.Machine

/-- R170: `AC <- DRead(mask16(SP + x))`. -/
def execLodl (x : Field12) (s : State) : Host.Outcome State Fault Refusal :=
  let r := dRead s (localAddress s x)
  .next (r.2.setAc r.1)

/-- R171: `DWrite(mask16(SP + x), AC)`. -/
def execStol (x : Field12) (s : State) : Host.Outcome State Fault Refusal :=
  .next (dWrite s (localAddress s x) s.ac)

/-- R172: `AC <- mask16(AC + DRead(mask16(SP + x)))`. -/
def execAddl (x : Field12) (s : State) : Host.Outcome State Fault Refusal :=
  let r := dRead s (localAddress s x)
  .next (r.2.setAc (addWord r.2.ac r.1))

/-- R173: `AC <- mask16(AC - DRead(mask16(SP + x)))`. -/
def execSubl (x : Field12) (s : State) : Host.Outcome State Fault Refusal :=
  let r := dRead s (localAddress s x)
  .next (r.2.setAc (subWord r.2.ac r.1))

end Sys2Proof.Machine
end

