-- ==== Sys2Proof/Machine/Stack.lean ====
section
/-! DEFINITION. Stack instructions (R200 to R206). -/

namespace Sys2Proof.Machine

/-- R200: `val <- DRead(AC); SP <- mask16(SP - 1); DWrite(SP, val)`. -/
def execPshi (s : State) : Host.Outcome State Fault Refusal :=
  let r := dRead s s.ac
  .next (pushWord r.2 r.1)

/-- R201: `val <- DRead(SP); DWrite(AC, val); SP <- mask16(SP + 1)`. -/
def execPopi (s : State) : Host.Outcome State Fault Refusal :=
  let r := dRead s s.sp
  let t := dWrite r.2 r.2.ac r.1
  .next (t.setSp (poppedSp t))

/-- R202: `SP <- mask16(SP - 1); DWrite(SP, AC)`. -/
def execPush (s : State) : Host.Outcome State Fault Refusal :=
  .next (pushWord s s.ac)

/-- R203: `AC <- DRead(SP); SP <- mask16(SP + 1)`. -/
def execPop (s : State) : Host.Outcome State Fault Refusal :=
  let r := popWord s
  .next (r.2.setAc r.1)

/-- R204: `AC, SP <- SP, AC`, both read first. -/
def execSwap (s : State) : Host.Outcome State Fault Refusal :=
  .next ((s.setAc s.sp).setSp s.ac)

/-- R205: `SP <- mask16(SP + y)`. -/
def execInsp (y : Field8) (s : State) : Host.Outcome State Fault Refusal :=
  .next (s.setSp (addWord s.sp (stackAmount y)))

/-- R206: `SP <- mask16(SP - y)`. -/
def execDesp (y : Field8) (s : State) : Host.Outcome State Fault Refusal :=
  .next (s.setSp (subWord s.sp (stackAmount y)))

end Sys2Proof.Machine
end

