-- ==== Sys2Proof/Machine/System.lean ====
section
/-! DEFINITION. HALT (R210) and the unknown extended word (R211). -/

namespace Sys2Proof.Machine

/-- R210: `halted <- true`, then both caches are flushed. -/
def execHalt (s : State) : Host.Outcome State Fault Refusal :=
  .next (flushBoth (enterHalted s))

/-- R211: the arm `Unknown` of R143: a logged no-op. -/
def execUnknown (w : Word) (s : State) : Host.Outcome State Fault Refusal :=
  .next (logUnknown s w)

end Sys2Proof.Machine
end

