-- ==== Sys2Proof/Machine/Dispatch.lean ====
section
/-! DEFINITION. R143: the dispatch of execute, one arm per instruction. -/

namespace Sys2Proof.Machine

def exec (i : Instr) (s : State) : Host.Outcome State Fault Refusal :=
  match i with
  | .lodd x => Sys2Proof.Machine.execLodd x s
  | .stod x => Sys2Proof.Machine.execStod x s
  | .addd x => Sys2Proof.Machine.execAddd x s
  | .subd x => Sys2Proof.Machine.execSubd x s
  | .jpos x => Sys2Proof.Machine.execJpos x s
  | .jzer x => Sys2Proof.Machine.execJzer x s
  | .jump x => Sys2Proof.Machine.execJump x s
  | .loco x => Sys2Proof.Machine.execLoco x s
  | .lodl x => Sys2Proof.Machine.execLodl x s
  | .stol x => Sys2Proof.Machine.execStol x s
  | .addl x => Sys2Proof.Machine.execAddl x s
  | .subl x => Sys2Proof.Machine.execSubl x s
  | .jneg x => Sys2Proof.Machine.execJneg x s
  | .jnze x => Sys2Proof.Machine.execJnze x s
  | .call x => Sys2Proof.Machine.execCall x s
  | .insp y => Sys2Proof.Machine.execInsp y s
  | .desp y => Sys2Proof.Machine.execDesp y s
  | .pshi => Sys2Proof.Machine.execPshi s
  | .popi => Sys2Proof.Machine.execPopi s
  | .push => Sys2Proof.Machine.execPush s
  | .pop => Sys2Proof.Machine.execPop s
  | .retn => Sys2Proof.Machine.execRetn s
  | .swap => Sys2Proof.Machine.execSwap s
  | .halt => Sys2Proof.Machine.execHalt s

end Sys2Proof.Machine
end

