-- ==== Sys2Proof/Machine/Step.lean ====
section
/-! DEFINITION. One step (R140 to R147): the `halted` test, the range test of the program counter, then fetch, decode and
execute. -/

namespace Sys2Proof.Machine

/-- R143: what the fetched word `IR` decodes to is executed; an unknown word runs the arm of R211. -/
def runFetched (s : State) : Host.Outcome State Fault Refusal :=
  match decode s.ir with
  | .ok i => exec i s
  | .error (.unknown w) => execUnknown w s

/-- R145: `step()`. -/
def step (s : State) : Host.Outcome State Fault Refusal :=
  if s.halted then .next s
  else if inRange s.pc then runFetched (fetch s)
  else .next (haltPcOutOfRange s)

/-- The state in which the very next step fetches and runs the given word (assumption 18): the engine running, the
program counter in range, the word where the fetch finds it. -/
def State.withFetchWord (s : State) (nbits w : Nat) : State :=
  let t := s.setHalted false
  let u := if inRange t.pc then t else t.setPc 0
  plantWord u u.pc.toNat (BitVec.ofNat 16 (w % 2 ^ nbits))

end Sys2Proof.Machine
end

