-- ==== Sys2Proof/Machine/Assembler.lean ====
section
/-! DEFINITION. The two-pass assembler (R220 to R238): a pure function from source text to a binary and a list of errors.
A source text is a list of characters. -/

namespace Sys2Proof.Machine

/-! ## Mnemonics and `Encode` (R121, R122) -/

/-- R121, R227: the 24 mnemonics. -/
inductive Mnemonic where
  | lodd | stod | addd | subd | jpos | jzer | jump | loco | lodl | stol | addl | subl
  | jneg | jnze | call | pshi | popi | push | pop | retn | swap | insp | desp | halt
deriving DecidableEq, Repr

/-- R121: the base opcode word. -/
def Mnemonic.base : Mnemonic → Word
  | .lodd => 0x0000
  | .stod => 0x1000
  | .addd => 0x2000
  | .subd => 0x3000
  | .jpos => 0x4000
  | .jzer => 0x5000
  | .jump => 0x6000
  | .loco => 0x7000
  | .lodl => 0x8000
  | .stol => 0x9000
  | .addl => 0xA000
  | .subl => 0xB000
  | .jneg => 0xC000
  | .jnze => 0xD000
  | .call => 0xE000
  | .pshi => 0xF000
  | .popi => 0xF200
  | .push => 0xF400
  | .pop => 0xF600
  | .retn => 0xF800
  | .swap => 0xFA00
  | .insp => 0xFC00
  | .desp => 0xFE00
  | .halt => 0xFFFF

/-- R121, R227: the spelling of each mnemonic. -/
def Mnemonic.spelling : Mnemonic → List Char
  | .lodd => ['L', 'O', 'D', 'D']
  | .stod => ['S', 'T', 'O', 'D']
  | .addd => ['A', 'D', 'D', 'D']
  | .subd => ['S', 'U', 'B', 'D']
  | .jpos => ['J', 'P', 'O', 'S']
  | .jzer => ['J', 'Z', 'E', 'R']
  | .jump => ['J', 'U', 'M', 'P']
  | .loco => ['L', 'O', 'C', 'O']
  | .lodl => ['L', 'O', 'D', 'L']
  | .stol => ['S', 'T', 'O', 'L']
  | .addl => ['A', 'D', 'D', 'L']
  | .subl => ['S', 'U', 'B', 'L']
  | .jneg => ['J', 'N', 'E', 'G']
  | .jnze => ['J', 'N', 'Z', 'E']
  | .call => ['C', 'A', 'L', 'L']
  | .pshi => ['P', 'S', 'H', 'I']
  | .popi => ['P', 'O', 'P', 'I']
  | .push => ['P', 'U', 'S', 'H']
  | .pop => ['P', 'O', 'P']
  | .retn => ['R', 'E', 'T', 'N']
  | .swap => ['S', 'W', 'A', 'P']
  | .insp => ['I', 'N', 'S', 'P']
  | .desp => ['D', 'E', 'S', 'P']
  | .halt => ['H', 'A', 'L', 'T']

/-- R121: all 24 mnemonics. -/
def Mnemonic.all : List Mnemonic :=
  [.lodd, .stod, .addd, .subd, .jpos, .jzer, .jump, .loco, .lodl, .stol, .addl, .subl,
   .jneg, .jnze, .call, .pshi, .popi, .push, .pop, .retn, .swap, .insp, .desp, .halt]

/-- R227: a token is a mnemonic when it is spelled exactly as one. -/
def Mnemonic.ofToken (t : List Char) : Option Mnemonic :=
  Mnemonic.all.find? fun m => m.spelling == t

/-- R122: INSP and DESP mask the operand to 8 bits, all others to 12. -/
def Mnemonic.operandRange (m : Mnemonic) : Int :=
  match m with
  | .insp => 256
  | .desp => 256
  | _ => 4096

/-- R121, R233: "every mnemonic whose base opcode value is below 0xF000, plus INSP/DESP". -/
def Mnemonic.takesOperand (m : Mnemonic) : Bool :=
  decide (m.base.toNat < 0xF000) || m == .insp || m == .desp

/-- R122: `Encode(m, v)`. -/
def encodeOperand (m : Mnemonic) (v : Int) : Word :=
  if m.takesOperand then addWord m.base (mask16 (v % m.operandRange)) else m.base

/-- The mnemonic of a core instruction (R121). -/
def mnemonicOf : Instr → Mnemonic
  | .lodd _ => .lodd
  | .stod _ => .stod
  | .addd _ => .addd
  | .subd _ => .subd
  | .jpos _ => .jpos
  | .jzer _ => .jzer
  | .jump _ => .jump
  | .loco _ => .loco
  | .lodl _ => .lodl
  | .stol _ => .stol
  | .addl _ => .addl
  | .subl _ => .subl
  | .jneg _ => .jneg
  | .jnze _ => .jnze
  | .call _ => .call
  | .insp _ => .insp
  | .desp _ => .desp
  | .pshi => .pshi
  | .popi => .popi
  | .push => .push
  | .pop => .pop
  | .retn => .retn
  | .swap => .swap
  | .halt => .halt

/-- The operand of a core instruction as a number, 0 where it has none (R114). -/
def operandOf : Instr → Nat
  | .lodd x => x.toNat
  | .stod x => x.toNat
  | .addd x => x.toNat
  | .subd x => x.toNat
  | .jpos x => x.toNat
  | .jzer x => x.toNat
  | .jump x => x.toNat
  | .loco x => x.toNat
  | .lodl x => x.toNat
  | .stol x => x.toNat
  | .addl x => x.toNat
  | .subl x => x.toNat
  | .jneg x => x.toNat
  | .jnze x => x.toNat
  | .call x => x.toNat
  | .insp y => y.toNat
  | .desp y => y.toNat
  | .pshi => 0
  | .popi => 0
  | .push => 0
  | .pop => 0
  | .retn => 0
  | .swap => 0
  | .halt => 0

/-! ## Lexical conventions (R223 to R228) -/

/-- R223: whitespace inside a line (assumption 12). -/
def isBlank (c : Char) : Bool := c == ' ' || c == '\t' || c == '\r'

/-- 48_assembler.md: `trim(s)`. -/
def trim (s : List Char) : List Char :=
  ((s.dropWhile isBlank).reverse.dropWhile isBlank).reverse

/-- The pieces of a text between the characters that satisfy `p`; always at least one piece. -/
def splitAtChars (p : Char → Bool) : List Char → List (List Char)
  | [] => [[]]
  | c :: cs =>
    if p c then [] :: splitAtChars p cs
    else
      match splitAtChars p cs with
      | [] => [[c]]
      | l :: ls => (c :: l) :: ls

/-- R223: the lines of a source text, split at the line feed. -/
def sourceLines (src : List Char) : List (List Char) := splitAtChars (fun c => c == '\n') src

/-- R224: the first comment marker and everything after it removed. -/
def stripComment (p : AsmParams) (line : List Char) : List Char :=
  line.takeWhile fun c => c != p.commentMarker

/-- R226: the tokens of a body, split at runs of whitespace. -/
def tokens (body : List Char) : List (List Char) :=
  (splitAtChars isBlank body).filter fun t => !t.isEmpty

/-- The value of a decimal digit. -/
def decDigit (c : Char) : Option Nat :=
  if c.isDigit then some (c.toNat - '0'.toNat) else none

/-- The value of a hexadecimal digit, of either case. -/
def hexDigit (c : Char) : Option Nat :=
  if c.isDigit then some (c.toNat - '0'.toNat)
  else if 'a'.toNat ≤ c.toNat ∧ c.toNat ≤ 'f'.toNat then some (c.toNat - 'a'.toNat + 10)
  else if 'A'.toNat ≤ c.toNat ∧ c.toNat ≤ 'F'.toNat then some (c.toNat - 'A'.toNat + 10)
  else none

/-- The number a string of digits denotes, continuing from `acc`; none if some character is no digit. -/
def digitsFrom (digit : Char → Option Nat) (base : Nat) : Nat → List Char → Option Nat
  | acc, [] => some acc
  | acc, c :: cs =>
    match digit c with
    | some d => digitsFrom digit base (acc * base + d) cs
    | none => none

/-- R228: one or more digits. -/
def number (digit : Char → Option Nat) (base : Nat) (t : List Char) : Option Nat :=
  if t.isEmpty then none else digitsFrom digit base 0 t

/-- R228: decimal digits, or `0x`/`0X` and hexadecimal digits. -/
def unsignedLiteral (t : List Char) : Option Nat :=
  match t with
  | '0' :: 'x' :: ds => number hexDigit 16 ds
  | '0' :: 'X' :: ds => number hexDigit 16 ds
  | _ => number decDigit 10 t

/-- R228: the default literal syntax, an optional `-` before an unsigned literal. -/
def signedLiteral (t : List Char) : Option Int :=
  match t with
  | '-' :: ds => (unsignedLiteral ds).map fun n => -(n : Int)
  | _ => (unsignedLiteral t).map fun n => (n : Int)

/-- R228: `IsInt` and `IntVal` in one: the value of a token that is an integer literal under `INT_SYNTAX`. -/
def intLiteral (p : AsmParams) (t : List Char) : Option Int :=
  match p.intSyntax with
  | .decimalAndHex => signedLiteral t
  | .unsignedDecimal => (number decDigit 10 t).map fun n => (n : Int)

/-! ## Pass 1 (R229 to R231) -/

/-- R222: the working state of one call. -/
structure AsmState where
  labelTable       : List (List Char × Nat)
  instructionLines : List (List Char)
  addressCounter   : Nat
deriving DecidableEq, Repr

/-- R222: the working state before the first line. -/
def AsmState.initial : AsmState :=
  { labelTable := [], instructionLines := [], addressCounter := 0 }

/-- R231: a definition replaces an earlier one of the same name. -/
def defineLabel (table : List (List Char × Nat)) (name : List Char) (addr : Nat) : List (List Char × Nat) :=
  (name, addr) :: table.filter fun e => e.1 != name

/-- R234: the address of a label. -/
def lookupLabel (table : List (List Char × Nat)) (name : List Char) : Option Nat :=
  (table.find? fun e => e.1 == name).map fun e => e.2

/-- R225: the label of a line and its body, split at the first delimiter; no label where there is none. -/
def splitLabel (s : List Char) : Option (List Char) × List Char :=
  if s.contains labelDelim then
    (some (trim (s.takeWhile fun c => c != labelDelim)),
     trim ((s.dropWhile fun c => c != labelDelim).drop 1))
  else (none, s)

/-- R229: a label binds to the current address counter. -/
def bindLabel (st : AsmState) : Option (List Char) → AsmState
  | some name => { st with labelTable := defineLabel st.labelTable name st.addressCounter }
  | none => st

/-- R229: a non-empty body is queued and advances the counter. -/
def queueBody (st : AsmState) (body : List Char) : AsmState :=
  if body.isEmpty then st
  else
    { st with
      instructionLines := st.instructionLines ++ [body]
      addressCounter := st.addressCounter + 1 }

/-- R229: one source line. -/
def pass1Line (p : AsmParams) (st : AsmState) (line : List Char) : AsmState :=
  let s := trim (stripComment p line)
  if s.isEmpty then st
  else queueBody (bindLabel st (splitLabel s).1) (splitLabel s).2

/-- R229: pass 1 over the whole text. -/
def pass1 (p : AsmParams) (src : List Char) : AsmState :=
  (sourceLines src).foldl (pass1Line p) AsmState.initial

/-! ## Pass 2 (R232 to R237) -/

/-- R237: the kinds of error. -/
inductive AsmErrorKind where
  | missingOperand
  | badOperand
  | unknownToken
deriving DecidableEq, Repr

/-- What one queued line gives: a word or an error. -/
inductive LineResult where
  | word (w : Word)
  | error (e : AsmErrorKind)
deriving DecidableEq, Repr

/-- R234: an operand token is a known label, else an integer literal. -/
def resolveOperand (p : AsmParams) (table : List (List Char × Nat)) (t : List Char) : Option Int :=
  match lookupLabel table t with
  | some a => some (a : Int)
  | none => intLiteral p t

/-- R236: a first token that is no mnemonic is an integer literal, else a known label; it emits a data word. -/
def assembleData (p : AsmParams) (table : List (List Char × Nat)) (t : List Char) : LineResult :=
  match intLiteral p t with
  | some v => .word (mask16 v)
  | none =>
    match lookupLabel table t with
    | some a => .word (mask16 (a : Int))
    | none => .error .unknownToken

/-- R232, R233: a line whose first token is the mnemonic `m`. -/
def assembleInstr (p : AsmParams) (table : List (List Char × Nat)) (m : Mnemonic) (opd : Option (List Char)) :
    LineResult :=
  if m.takesOperand then
    match opd with
    | none => .error .missingOperand
    | some t =>
      match resolveOperand p table t with
      | some v => .word (encodeOperand m v)
      | none => .error .badOperand
  else .word m.base

/-- R232: one queued body. -/
def assembleLine (p : AsmParams) (table : List (List Char × Nat)) (body : List Char) : LineResult :=
  match tokens body with
  | [] => .error .unknownToken
  | t :: rest =>
    match Mnemonic.ofToken t with
    | some m => assembleInstr p table m rest.head?
    | none => assembleData p table t

/-- R220, R237: the result of `compile`: words in source order, and errors with their 1-based queued-line numbers. -/
structure Compiled where
  binary : List Word
  errors : List (Nat × AsmErrorKind)
deriving DecidableEq, Repr

/-- R232: pass 2 from the `k`-th queued body on. -/
def pass2From (p : AsmParams) (table : List (List Char × Nat)) : Nat → List (List Char) → Compiled
  | _, [] => { binary := [], errors := [] }
  | k, body :: rest =>
    let r := pass2From p table (k + 1) rest
    match assembleLine p table body with
    | .word w => { r with binary := w :: r.binary }
    | .error e => { r with errors := (k, e) :: r.errors }

/-- R220: `compile(sourceText)`, the parameters given. -/
def compileWith (p : AsmParams) (src : List Char) : Compiled :=
  let st := pass1 p src
  pass2From p st.labelTable 1 st.instructionLines

/-- R220: `compile(sourceText)` under the spec's default parameters (R5). -/
def compile (src : List Char) : Compiled := compileWith AsmParams.default src

end Sys2Proof.Machine
end

