-- ==== Sys2Proof/Machine/HostOps.lean ====
section
/-! DEFINITION. The host's operations (R3 (e), R306, R307): `loadProgram`, `reset`, `step`, observe, `compile`. -/

namespace Sys2Proof.Machine

/-- R5: the sizes of a machine's two caches, which no operation changes. -/
def State.config (s : State) : Config :=
  { ic := { lineCount := s.ic.lines.length, blockSize := s.ic.blockSize }
    dc := { lineCount := s.dc.lines.length, blockSize := s.dc.blockSize } }

/-- R301: `reset()`; the caches are recreated with the sizes they have. -/
def hostReset (s : State) : State := State.resetWith s.config

/-- R302: words copied into Memory from address `a` upward. -/
def copyWords (a : Nat) : List Word → Memory → Memory
  | [], m => m
  | w :: ws, m => copyWords (a + 1) ws (memWrite m a w)

/-- R302: `loadProgram(words)`: `reset()`, then the first 4096 words copied from address 0, not through a cache. -/
def loadProgram (words : List Word) (s : State) : State :=
  let t := hostReset s
  t.setMemory (copyWords loadAddress (words.take memWords) t.memory)

/-- R40, R274: what the host can see between steps. -/
structure Observation where
  /-- R40: "registers (named, 16-bit)", in the order of R20. -/
  registers : List (RegName × Word)
  halted    : Bool
  /-- R40: "Memory contents", addresses 0..4095. -/
  memory    : List Word
  icLines   : List CacheLine
  dcLines   : List CacheLine
  icHits    : Nat
  icMisses  : Nat
  dcHits    : Nat
  dcMisses  : Nat
  /-- R274: the per-access event logs. -/
  icLog     : List CacheEvent
  dcLog     : List CacheEvent
  /-- R40: "the current step's trace lines". -/
  trace     : List TraceEntry
deriving DecidableEq, Repr

/-- R20: the thirteen registers in the order the source names them. -/
def RegName.all : List RegName :=
  [.pc, .ac, .sp, .ir, .tir, .mar, .mbr, .a, .b, .c, .d, .e, .f]

/-- R40: observation, which changes nothing. -/
def observe (s : State) : Observation :=
  { registers := RegName.all.map fun r => (r, s.reg r)
    halted := s.halted
    memory := (List.range memWords).map fun a => memRead s.memory a
    icLines := s.ic.lines
    dcLines := s.dc.lines
    icHits := s.ic.hitCount
    icMisses := s.ic.missCount
    dcHits := s.dc.hitCount
    dcMisses := s.dc.missCount
    icLog := s.ic.eventLog
    dcLog := s.dc.eventLog
    trace := s.microLog }

/-- R3 (e), R307: the host's five moves; a model gives the host no other. -/
inductive HostOp where
  | compile (src : List Char)
  | loadProgram (words : List Word)
  | reset
  | step
  | observe
deriving DecidableEq, Repr

/-- R307: what each move does to the machine; `compile` and observation change nothing. -/
def HostOp.apply (op : HostOp) (s : State) : Host.Outcome State Fault Refusal :=
  match op with
  | .compile _ => .next s
  | .loadProgram words => .next (Sys2Proof.Machine.loadProgram words s)
  | .reset => .next (hostReset s)
  | .step => Sys2Proof.Machine.step s
  | .observe => .next s

/-- R221, R305, U9: from source text to a loaded engine; a binary with errors is not loaded. -/
def compileAndLoad (p : AsmParams) (src : List Char) (s : State) : Option State :=
  let r := compileWith p src
  if r.errors.isEmpty then some (loadProgram r.binary s) else none

end Sys2Proof.Machine
end

