-- ==== Sys2Proof/WellFormed.lean ====
section
/-! DEFINITION. The checks on what is given to the machine from outside: the cache sizes, a program, a label name, a
source text. An instruction needs no check: its operand's type admits exactly the values its field can hold (R114), so
every `Instr` is well-formed and each has an encoding. -/

namespace Sys2Proof

/-- R5: `K >= 1` and `N >= 1`. -/
def CacheParams.wellFormed (p : CacheParams) : Bool :=
  decide (1 ≤ p.lineCount) && decide (1 ≤ p.blockSize)

/-- R5, for both instances. -/
def Config.wellFormed (cfg : Config) : Bool :=
  cfg.ic.wellFormed && cfg.dc.wellFormed

/-- R302: a program that `loadProgram` keeps whole (a longer one is truncated, which is no error). -/
def programFits (words : List Word) : Bool :=
  decide (words.length ≤ memWords)

/-- R225: a letter or `_`. -/
def isLabelStart (c : Char) : Bool :=
  c.isAlpha || c == '_'

/-- R225: the label names a model restricts itself to, a letter or `_` followed by letters, digits and `_`. -/
def labelWellFormed : List Char → Bool
  | [] => false
  | c :: cs => isLabelStart c && cs.all (fun d => isLabelStart d || d.isDigit)

/-- R223: the characters a model restricts a source text to: printable ASCII, space, tab, CR and LF. -/
def sourceCharsWellFormed (src : List Char) : Bool :=
  src.all fun c => (decide (32 ≤ c.toNat) && decide (c.toNat ≤ 126)) || c == '\t' || c == '\r' || c == '\n'

end Sys2Proof
end

