-- ==== Sys2Proof/Safety.lean ====
section
/-! DEFINITION. What counts as a sound machine state and as a run, in the terms the statements use. -/

namespace Sys2Proof.Machine

/-- R31: `lines.length == N` with `N >= 1`, `K >= 1`, every line's block has `K` words, and (R32) no line is dirty. -/
structure Cache.Shaped (c : Cache) : Prop where
  someLine : 1 ≤ c.lines.length
  someWord : 1 ≤ c.blockSize
  blocks   : ∀ l ∈ c.lines, l.block.length = c.blockSize
  clean    : ∀ l ∈ c.lines, l.dirty = false

/-- R66, R67: the address of word `j` of the block that line `i` maps when its tag is `tag`. -/
def Cache.mappedAddress (c : Cache) (i tag j : Nat) : Nat :=
  (tag * c.lines.length + i) * c.blockSize + j

/-- R83: every valid line holds exactly the current Memory content of the block it maps. -/
def Coherent (c : Cache) (m : Memory) : Prop :=
  ∀ i, (h : i < c.lines.length) → c.lines[i].valid = true →
    ∀ j, j < c.blockSize → c.lines[i].block[j]? = some (memRead m (c.mappedAddress i c.lines[i].tag j))

/-- R34: the events of a log that report a hit. -/
def hitEvents (log : List CacheEvent) : Nat :=
  log.countP fun e => match e with | .hit _ => true | .miss _ => false | .flush => false

/-- R34: the events of a log that report a miss. -/
def missEvents (log : List CacheEvent) : Nat :=
  log.countP fun e => match e with | .hit _ => false | .miss _ => true | .flush => false

/-- R34: the flushes a log reports. -/
def flushEvents (log : List CacheEvent) : Nat :=
  log.countP fun e => match e with | .hit _ => false | .miss _ => false | .flush => true

/-- R33, R34: the two counters count what the log reports. -/
structure Cache.Counted (c : Cache) : Prop where
  hits   : c.hitCount = hitEvents c.eventLog
  misses : c.missCount = missEvents c.eventLog

/-- What every single operation of the machine keeps. -/
structure State.DataInv (s : State) : Prop where
  /-- The canonical form of Memory (assumption 1). -/
  memoryCanonical : s.memory.wf
  /-- R31, R32. -/
  icShaped : s.ic.Shaped
  /-- R31, R32. -/
  dcShaped : s.dc.Shaped
  /-- R83: the data side is coherent with Memory. -/
  dcCoherent : Coherent s.dc s.memory
  /-- R33, R34. -/
  icCounted : s.ic.Counted
  /-- R33, R34. -/
  dcCounted : s.dc.Counted
  /-- R23, D2: `TIR` and `A`..`F` keep their reset value 0. -/
  unusedZero : s.tir = 0 ∧ s.regA = 0 ∧ s.regB = 0 ∧ s.regC = 0 ∧ s.regD = 0 ∧ s.regE = 0 ∧ s.regF = 0
  /-- R23, R142: `MBR` is the instruction word in `IR`. -/
  mbrIsIr : s.mbr = s.ir

/-- What holds of a machine at reset and is kept by every step and by every move of the host. -/
structure State.Inv (s : State) : Prop extends State.DataInv s where
  /-- R261: an executed `0xFFFF` always halts at once. -/
  haltWordHalts : s.ir = 0xFFFF → s.halted = true

/-- R307: the states a machine can be in: power-on with some sizes of R5 (R300), then any of the host's moves. -/
inductive Reachable : State → Prop where
  | powerOn (cfg : Config) (h : cfg.wellFormed = true) : Reachable (State.resetWith cfg)
  | move (op : HostOp) (s t : State) (hs : Reachable s) (h : op.apply s = .next t) : Reachable t

/-- R148: `t` is the state after `n` steps from `s`. -/
inductive StepsTo : Nat → State → State → Prop where
  | refl (s : State) : StepsTo 0 s s
  | step (n : Nat) (s t u : State) (h : Sys2Proof.Machine.step s = .next t) (r : StepsTo n t u) : StepsTo (n + 1) s u

/-- R148: a run from `s` ends when some number of steps reaches a halted state. -/
def Ends (s : State) : Prop := ∃ n t, StepsTo n s t ∧ t.halted = true

/-- R260, R261: a halted state in which the run ended by HALT. -/
def EndedByHalt (s : State) : Prop := s.halted = true ∧ s.ir = 0xFFFF

/-- R261: a halted state in which the run ended by a program counter out of range. -/
def EndedByPcOutOfRange (s : State) : Prop := s.halted = true ∧ s.ir ≠ 0xFFFF

/-! ## What an instruction may touch -/

/-- R22: the registers the execute phase of an instruction may write ("written by" of the table, less fetch). -/
def writtenRegisters : Instr → List RegName
  | .lodd _ => [.ac]
  | .stod _ => []
  | .addd _ => [.ac]
  | .subd _ => [.ac]
  | .jpos _ => [.pc]
  | .jzer _ => [.pc]
  | .jump _ => [.pc]
  | .loco _ => [.ac]
  | .lodl _ => [.ac]
  | .stol _ => []
  | .addl _ => [.ac]
  | .subl _ => [.ac]
  | .jneg _ => [.pc]
  | .jnze _ => [.pc]
  | .call _ => [.sp, .pc]
  | .insp _ => [.sp]
  | .desp _ => [.sp]
  | .pshi => [.sp]
  | .popi => [.sp]
  | .push => [.sp]
  | .pop => [.ac, .sp]
  | .retn => [.pc, .sp]
  | .swap => [.ac, .sp]
  | .halt => []

/-- R77: the address an instruction stores to, by the operand form its meaning uses; none where it stores nothing. -/
def storeTarget (i : Instr) (s : State) : Option Word :=
  match i with
  | .stod x => some (directAddress x)
  | .stol x => some (localAddress s x)
  | .call _ => some (pushAddress s)
  | .push => some (pushAddress s)
  | .pshi => some (pushAddress s)
  | .popi => some s.ac
  | .lodd _ | .addd _ | .subd _ | .jpos _ | .jzer _ | .jump _ | .loco _ | .lodl _ | .addl _ | .subl _
  | .jneg _ | .jnze _ | .insp _ | .desp _ | .pop | .retn | .swap | .halt => none

/-- R77, R79: the addresses of an instruction's data accesses, in order. -/
def dataAccesses (i : Instr) (s : State) : List Word :=
  match i with
  | .lodd x | .stod x | .addd x | .subd x => [directAddress x]
  | .lodl x | .stol x | .addl x | .subl x => [localAddress s x]
  | .call _ | .push => [pushAddress s]
  | .pop | .retn => [s.sp]
  | .pshi => [s.ac, pushAddress s]
  | .popi => [s.sp, s.ac]
  | .jpos _ | .jzer _ | .jump _ | .loco _ | .jneg _ | .jnze _ | .insp _ | .desp _ | .swap | .halt => []

/-- R34: the address an event reports. -/
def CacheEvent.address : CacheEvent → Option Nat
  | .hit a => some a
  | .miss a => some a
  | .flush => none

/-- What a store of `v` at word address `a` leaves in Memory: the word where the address names one, nothing where it does
not (R62), and every stored byte outside that word as it was. -/
def StoredWord (m m' : Memory) (a : Nat) (v : Word) : Prop :=
  (a < memWords → memRead m' a = v) ∧ (memWords ≤ a → m' = m) ∧
    ∀ c, c / 2 ≠ a → readByte m' c = readByte m c

/-! ## Accesses to one cache (R88) -/

/-- R68, R69: one call on a cache. -/
inductive CacheCall where
  | read (a : Nat)
  | write (a : Nat) (v : Word)
deriving DecidableEq, Repr

/-- The address a call goes to. -/
def CacheCall.address : CacheCall → Nat
  | .read a => a
  | .write a _ => a

/-- A cache and its Memory after one call. -/
def CacheCall.apply (p : Cache × Memory) : CacheCall → Cache × Memory
  | .read a => ((p.1.read p.2 a).2, p.2)
  | .write a v => p.1.write p.2 a v

/-! ## Source text -/

/-- U8: source text inside the subset the source itself shows: admitted characters, no comment, identifier-like labels
defined once, at most two tokens a line. -/
def sourceAdmitted (p : AsmParams) (src : List Char) : Bool :=
  sourceCharsWellFormed src && !src.contains p.commentMarker &&
    (pass1 p src).labelTable.all (fun e => labelWellFormed e.1) &&
    (((sourceLines src).filterMap fun l => (splitLabel (trim (stripComment p l))).1).Nodup : Bool) &&
    (pass1 p src).instructionLines.all (fun b => decide ((tokens b).length ≤ 2))

end Sys2Proof.Machine
end

