-- ==== Sys2Proof/Certificates/Slice0/Obligations.lean ====
section
/-! DEFINITION. The statements for the provers. A clause that rests on one of the spec's own decisions (D<n>) names it and the
assumption log's entry. An equation of a whole next state includes the trace, whose groups stand for all the lines of their
cycle, those an arm of R143 appends among them (assumption 8). -/

open Sys2Proof Sys2Proof.Machine

/-! ## Encoding -/

/-- 30_encoding.md sections 3 and 5 (R123): decoding an encoded instruction gives it back, every operand at every value. -/
def Obligations.DecodeOfEncode : Prop :=
  ∀ i : Instr, decode (encode i) = .ok i

/-- R123: encoding a decoded legal word gives the word back, so no two words decode to one instruction. -/
def Obligations.EncodeOfDecode : Prop :=
  ∀ (w : Word) (i : Instr), decode w = .ok i → encode i = w

/-- R118: the unknown words are exactly the eight ranges; a rejection names the word; every other word is legal. -/
def Obligations.UnknownWordsAreTheEightRanges : Prop :=
  ∀ w : Word,
    (decode w = .error (.unknown w) ∨ ∃ i, decode w = .ok i) ∧
    (decode w = .error (.unknown w) ↔
      (0xF001 ≤ w.toNat ∧ w.toNat ≤ 0xF1FF) ∨ (0xF201 ≤ w.toNat ∧ w.toNat ≤ 0xF3FF) ∨
      (0xF401 ≤ w.toNat ∧ w.toNat ≤ 0xF5FF) ∨ (0xF601 ≤ w.toNat ∧ w.toNat ≤ 0xF7FF) ∨
      (0xF801 ≤ w.toNat ∧ w.toNat ≤ 0xF9FF) ∨ (0xFA01 ≤ w.toNat ∧ w.toNat ≤ 0xFBFF) ∨
      (0xFD00 ≤ w.toNat ∧ w.toNat ≤ 0xFDFF) ∨ (0xFF00 ≤ w.toNat ∧ w.toNat ≤ 0xFFFE))

/-- R116, R117: words written out from the encoding tables decode to the instructions they stand for. -/
def Obligations.TabledWordsDecode : Prop :=
  decode 0b0000000000001010#16 = .ok (.lodd 10) ∧ decode 0b0001101010111100#16 = .ok (.stod 0xABC) ∧
  decode 0b1000000000000001#16 = .ok (.lodl 1) ∧ decode 0b0100000000010000#16 = .ok (.jpos 16) ∧
  decode 0b1110111111111111#16 = .ok (.call 4095) ∧ decode 0b1111100000000000#16 = .ok .retn ∧
  decode 0b1111110011111111#16 = .ok (.insp 255) ∧ decode 0b1111111000000011#16 = .ok (.desp 3) ∧
  decode 0b1111111111111111#16 = .ok .halt ∧ decode 0b1111000000000001#16 = .error (.unknown 0xF001)

/-- R122, R123: what the assembler's `Encode(m, v)` gives for any integer decodes to `m` with the operand masked to its
field, and the encoder is `Encode` of the instruction's own mnemonic and operand. -/
def Obligations.AssembledWordDecodesToMaskedOperand : Prop :=
  (∀ (m : Mnemonic) (v : Int), ∃ i, decode (encodeOperand m v) = .ok i ∧ mnemonicOf i = m ∧
    (operandOf i : Int) = if m.takesOperand then v % m.operandRange else 0) ∧
  ∀ i : Instr, encodeOperand (mnemonicOf i) (operandOf i : Int) = encode i

/-! ## Reset and load -/

/-- R301, R21: `reset()` zeroes Memory, empties both caches, sets `SP` to 4095 and every other register to 0, clears the
flag and the trace, in any state. -/
def Obligations.HostResetZeroesEverything : Prop :=
  ∀ s : State,
    (∀ r : RegName, (hostReset s).reg r = if r = .sp then 4095 else 0) ∧
    (hostReset s).halted = false ∧ (hostReset s).microLog = [] ∧
    (∀ a, memRead (hostReset s).memory a = 0) ∧
    (∀ c ∈ [((hostReset s).ic, s.ic), ((hostReset s).dc, s.dc)],
      c.1.hitCount = 0 ∧ c.1.missCount = 0 ∧ c.1.eventLog = [] ∧ c.1.blockSize = c.2.blockSize ∧
      c.1.lines.length = c.2.lines.length ∧ (∀ l ∈ c.1.lines, l.valid = false) ∧ ∀ a, c.1.isHit a = false)

/-- R41: the reset state, for every choice of sizes, meets the invariant, whose clauses on `TIR`, `A`..`F` and `MBR` are the
spec's own decision D2 (assumption 3). -/
def Obligations.ResetMeetsInvariant : Prop :=
  ∀ cfg : Config, cfg.wellFormed = true → (State.resetWith cfg).Inv

/-- 70_reset_and_hazards.md section 1: `loadProgram` leaves the reset state with the first 4096 words in Memory from address 0
and 0 beyond. That Memory is zeroed first is the spec's own decision D10 (assumption 10). -/
def Obligations.LoadProgramPlacesWords : Prop :=
  ∀ (words : List Word) (s : State),
    loadProgram words s = { hostReset s with memory := (loadProgram words s).memory } ∧
    (loadProgram words s).memory.wf ∧
    ∀ a, memRead (loadProgram words s).memory a =
      if a < min words.length 4096 then words.getD a 0 else 0

/-- R303: after `loadProgram` the first step fetches the first word, at address 0, as an instruction-cache miss. That an
empty program leaves the word 0 there is the spec's own decision D10 (assumption 10); that `MAR` still holds the address
after the whole step is its decision D2 (U2, assumption 3). -/
def Obligations.FirstFetchAfterLoadMisses : Prop :=
  ∀ (words : List Word) (s : State), s.ic.Shaped → s.dc.Shaped →
    ∃ t, step (loadProgram words s) = .next t ∧ t.mar = 0 ∧ t.ir = words.getD 0 0 ∧
      t.ic.hitCount = 0 ∧ t.ic.missCount = 1

/-! ## The cache controller -/

/-- R66: the mapping, in general and bit by bit under the default sizes. -/
def Obligations.CacheMappingIsDirect : Prop :=
  (∀ (c : Cache) (a : Nat), c.lineIndex a = a / c.blockSize % c.lines.length ∧
    c.tagOf a = a / (c.blockSize * c.lines.length) ∧ c.offset a = a % c.blockSize) ∧
  (∀ (c : Cache) (a : Nat), c.Shaped → (c.isHit a = true ↔
    ∃ l, c.lines[c.lineIndex a]? = some l ∧ l.valid = true ∧ l.tag = c.tagOf a)) ∧
  ∀ (c : Cache) (a b : Word), c.blockSize = 4 → c.lines.length = 8 →
    c.offset a.toNat = (a.extractLsb' 0 2).toNat ∧ c.lineIndex a.toNat = (a.extractLsb' 2 3).toNat ∧
    c.tagOf a.toNat = (a.extractLsb' 5 11).toNat ∧ (a.toNat < 4096 → c.tagOf a.toNat ≤ 127) ∧
    (c.lineIndex a.toNat = c.lineIndex b.toNat ↔ a.extractLsb' 2 3 = b.extractLsb' 2 3) ∧
    (c.blockBase a.toNat = c.blockBase b.toNat ↔ a.extractLsb' 2 14 = b.extractLsb' 2 14)

/-- R67, R68: a hit counts and returns the line's copy whatever Memory holds; a miss counts, fetches the whole aligned
block into the one candidate line and returns the word of Memory. -/
def Obligations.CacheReadHitAndMiss : Prop :=
  ∀ (c : Cache) (m : Memory) (a : Nat), c.Shaped →
    (c.isHit a = true →
      c.lines[c.lineIndex a]?.bind (fun l => l.block[c.offset a]?) = some (c.read m a).1 ∧
      (c.read m a).2 = { c with hitCount := c.hitCount + 1, eventLog := c.eventLog ++ [.hit a] }) ∧
    (c.isHit a = false →
      (c.read m a).1 = memRead m a ∧
      ∃ l, (c.read m a).2 = { c with
          lines := c.lines.set (c.lineIndex a) l
          missCount := c.missCount + 1
          eventLog := c.eventLog ++ [.miss a] } ∧
        l.valid = true ∧ l.tag = c.tagOf a ∧ l.dirty = (c.lineAt a).dirty ∧ l.block.length = c.blockSize ∧
        ∀ j, j < c.blockSize → l.block[j]? = some (memRead m (a / c.blockSize * c.blockSize + j)))

/-- R69, R72: after a write the word is in Memory (where the address names a word) and in the line, `a` hits, one counter
moved, on a miss the rest of the line is the old block of Memory, and no other line moved. -/
def Obligations.CacheWriteReachesLineAndMemory : Prop :=
  ∀ (c : Cache) (m : Memory) (a : Nat) (v : Word), c.Shaped → m.wf →
    (a < 4096 → memRead (c.write m a v).2 a = v) ∧
    (4096 ≤ a → (c.write m a v).2 = m) ∧
    (∀ b, b ≠ a → memRead (c.write m a v).2 b = memRead m b) ∧
    (c.write m a v).1.isHit a = true ∧ (c.write m a v).1.wordAt a = v ∧
    ((c.write m a v).1.lineAt a).dirty = (c.lineAt a).dirty ∧
    (c.write m a v).1.blockSize = c.blockSize ∧ (c.write m a v).1.lines.length = c.lines.length ∧
    (∀ i, i ≠ c.lineIndex a → (c.write m a v).1.lines[i]? = c.lines[i]?) ∧
    (∀ j, j < c.blockSize → j ≠ c.offset a →
      ((c.write m a v).1.lineAt a).block[j]? =
        if c.isHit a then (c.lineAt a).block[j]? else some (memRead m (a / c.blockSize * c.blockSize + j))) ∧
    (c.write m a v).1.hitCount = c.hitCount + (if c.isHit a then 1 else 0) ∧
    (c.write m a v).1.missCount = c.missCount + (if c.isHit a then 0 else 1) ∧
    (c.write m a v).1.eventLog = c.eventLog ++ [if c.isHit a then .hit a else .miss a]

/-- R88: in an empty cache every address misses; once accessed, an address stays a hit as long as no access goes to an
address of the same line and another tag. -/
def Obligations.SecondAccessHitsUnlessEvicted : Prop :=
  (∀ (p : CacheParams) (a : Nat), (Cache.empty p).isHit a = false) ∧
  ∀ (c : Cache) (m : Memory) (first : CacheCall) (between : List CacheCall), c.Shaped →
    (∀ k ∈ between, c.lineIndex k.address = c.lineIndex first.address →
      c.tagOf k.address = c.tagOf first.address) →
    ((between.foldl CacheCall.apply (first.apply (c, m))).1).isHit first.address = true

/-- R84: whatever an instruction stores, a fetch from an address whose block is valid in the instruction cache returns the
same word as before; the data side sees the new word (R83). The fetch clause is a deduction: the spec lets the mechanism win
over the source's consistency sentence (C2, assumption 19). -/
def Obligations.StoresDoNotReachResidentFetches : Prop :=
  ∀ (i : Instr) (s t : State), s.Inv → exec i s = .next t →
    (∀ a, s.ic.isHit a = true → t.ic.isHit a = true ∧ (t.ic.read t.memory a).1 = (s.ic.read s.memory a).1) ∧
    ∀ a : Word, (dRead t a).1 = memRead t.memory a.toNat

/-- R85: fetching from another block of the same line makes the next fetch read Memory. -/
def Obligations.EvictionMakesFetchReadMemory : Prop :=
  ∀ (s : State) (a b : Word), s.ic.Shaped → s.ic.lineIndex b.toNat = s.ic.lineIndex a.toNat →
    s.ic.tagOf b.toNat ≠ s.ic.tagOf a.toNat →
    (iFetch s b).2.ic.isHit a.toNat = false ∧ (iFetch (iFetch s b).2 a).1 = memRead s.memory a.toNat

/-! ## The step -/

/-- R140: a step of a halted engine changes nothing. That the trace is left alone too is the spec's own decision D9
(assumption 9). -/
def Obligations.HaltedStepChangesNothing : Prop :=
  ∀ s : State, s.halted = true → step s = .next s

/-- R141: a running engine whose program counter is out of range halts and nothing else changes but the trace, which holds
one notice (the spec's own decision D9, assumption 9). -/
def Obligations.OutOfRangePcHaltsOnly : Prop :=
  ∀ s : State, s.halted = false → 4096 ≤ s.pc.toNat →
    step s = .next { s with halted := true, microLog := [.pcOutOfRange] }

/-- R142, R143: a running engine with the program counter in range fetches through the instruction cache, replaces the trace
of the previous step (whatever it was) by at least one entry, and runs the one arm the fetched word decodes to. -/
def Obligations.StepFetchesAndRunsDecoded : Prop :=
  ∀ s : State, s.halted = false → s.pc.toNat < 4096 →
    ∃ f : State,
      f = { s with
        mar := s.pc
        mbr := (s.ic.read s.memory s.pc.toNat).1
        ir := (s.ic.read s.memory s.pc.toNat).1
        pc := s.pc + 1
        ic := (s.ic.read s.memory s.pc.toNat).2
        microLog := f.microLog } ∧
      f.microLog ≠ [] ∧
      (∀ old : List TraceEntry, step { s with microLog := old } = step s) ∧
      (∀ i, decode f.ir = .ok i → step s = exec i f) ∧
      (∀ w, decode f.ir = .error (.unknown w) → w = f.ir ∧ step s = execUnknown w f)

/-- R211: an unknown word changes nothing beyond its fetch but the trace. That the notice stands in `microLog` is the spec's
own decision D8 (assumption 8). -/
def Obligations.UnknownWordIsLoggedNoOp : Prop :=
  ∀ (s : State) (w : Word), s.halted = false → s.pc.toNat < 4096 → decode (fetch s).ir = .error (.unknown w) →
    ∃ t, step s = .next t ∧
      t = { s with
        mar := s.pc
        mbr := w
        ir := w
        pc := s.pc + 1
        ic := (s.ic.read s.memory s.pc.toNat).2
        microLog := t.microLog } ∧
      .unknownInstruction w ∈ t.microLog

/-- R146, R144 (e): a step always answers a next state: no fault, no refusal, whatever Memory holds. -/
def Obligations.StepAlwaysAnswersNext : Prop :=
  ∀ s : State, ∃ t, step s = .next t

/-- The headline invariant: canonical Memory, the shape of both caches (R31), clean lines (R32), the coherence of the data
side (R83), exact counters (R33, R34: unbounded, the spec's own decision D7, assumption 7, over logs of one entry an event,
D8, assumption 8), unused registers zero and `MBR = IR` (R23, D2, assumption 3), and the word `0xFFFF` in `IR` only when halted (R261). -/
def Obligations.StepKeepsInvariant : Prop :=
  ∀ s t : State, s.Inv → step s = .next t → t.Inv

/-- The invariant holds in every state the host can bring the machine to (R307). That power-on gives the reset state is the
spec's own decision D19 (assumption 21); the invariant's clauses on `TIR`, `A`..`F` and `MBR` are D2 (assumption 3), on the
counters and logs D7 and D8 (assumptions 7, 8). -/
def Obligations.ReachableStatesMeetInvariant : Prop :=
  ∀ s : State, Reachable s → s.Inv

/-- R5, R31: no step changes the sizes of a cache. -/
def Obligations.StepKeepsCacheSizes : Prop :=
  ∀ s t : State, step s = .next t → t.config = s.config

/-- R213: no instruction but HALT stops the engine, no instruction restarts it; of the host's moves only `reset()` and
`loadProgram()` clear `halted`, and both do. -/
def Obligations.OnlyHaltStopsAndOnlyHostRestarts : Prop :=
  (∀ (i : Instr) (s t : State), exec i s = .next t → t.halted = (s.halted || decide (i = .halt))) ∧
  (∀ (w : Word) (s t : State), execUnknown w s = .next t → t.halted = s.halted) ∧
  (∀ (op : HostOp) (s t : State), op.apply s = .next t → s.halted = true →
    (t.halted = false ↔ op = .reset ∨ ∃ words, op = .loadProgram words)) ∧
  (∀ s : State, (hostReset s).halted = false) ∧
  ∀ (words : List Word) (s : State), (loadProgram words s).halted = false

/-- R261: from a running state that meets the invariant, a step that ends the run leaves `IR = 0xFFFF` exactly when it
executed HALT and `IR ≠ 0xFFFF` exactly when the program counter was out of range. -/
def Obligations.EndOfRunIsToldByIr : Prop :=
  ∀ s t : State, s.Inv → s.halted = false → step s = .next t → t.halted = true →
    (EndedByHalt t ↔ s.pc.toNat < 4096 ∧ decode (fetch s).ir = .ok .halt) ∧
    (EndedByPcOutOfRange t ↔ 4096 ≤ s.pc.toNat)

/-- R26: the program counter leaves 0..4095 only by a fetch at 4095 or by RETN. -/
def Obligations.PcLeavesRangeInTwoWays : Prop :=
  ∀ s t : State, s.halted = false → s.pc.toNat < 4096 → step s = .next t → 4096 ≤ t.pc.toNat →
    (s.pc = 4095 ∧ t.pc = 4096) ∨ decode (fetch s).ir = .ok .retn

/-- R22, R144 (d): the frame of every instruction: a register its row does not name keeps its value, as do the trace, the
halted flag (but for HALT) and the instruction cache (but for the flush entry of HALT). That `MAR` and `MBR` are never
named is the spec's own decision D2 (assumption 3); that an arm adds no trace group of its own is the model's reading of D8
(assumption 8): R143 lets it append lines, and they belong to the group of its cycle. -/
def Obligations.ExecuteWritesOnlyNamedRegisters : Prop :=
  ∀ (i : Instr) (s t : State), exec i s = .next t →
    (∀ r : RegName, r ∉ writtenRegisters i → t.reg r = s.reg r) ∧
    t.microLog = s.microLog ∧ (i ≠ .halt → t.halted = s.halted ∧ t.ic = s.ic) ∧
    t.ic.lines = s.ic.lines ∧ t.ic.hitCount = s.ic.hitCount ∧ t.ic.missCount = s.ic.missCount

/-- R77: the frame of every instruction on Memory: every byte outside the word stored to reads as before, and an
instruction that stores nothing leaves Memory as it was. -/
def Obligations.ExecuteStoresOnlyAtItsTarget : Prop :=
  ∀ (i : Instr) (s t : State), s.memory.wf → exec i s = .next t →
    (∀ a, storeTarget i s = some a → ∀ c, c / 2 ≠ a.toNat → readByte t.memory c = readByte s.memory c) ∧
    (storeTarget i s = none → t.memory = s.memory)

/-- R79, R89: the data cache's log grows by the in-range data accesses of the instruction, in their order, each a hit or a
miss; the counters grow by as many. That every data access uses the data cache is the spec's own decision D4 (R76,
assumption 4); that out-of-range accesses leave no mark is its decision D3 (assumption 2). -/
def Obligations.DataAccessesAreCountedInOrder : Prop :=
  ∀ (i : Instr) (s t : State), exec i s = .next t →
    (∃ es, t.dc.eventLog = s.dc.eventLog ++ es ∧
      es.filterMap CacheEvent.address = ((dataAccesses i s).filter inRange).map BitVec.toNat) ∧
    t.dc.hitCount + t.dc.missCount =
      s.dc.hitCount + s.dc.missCount + ((dataAccesses i s).filter inRange).length

/-- R89: the instruction cache counts the completed fetches and nothing else. -/
def Obligations.InstructionCacheCountsFetches : Prop :=
  ∀ s t : State, step s = .next t →
    t.ic.hitCount + t.ic.missCount = s.ic.hitCount + s.ic.missCount +
      (if s.halted = false ∧ s.pc.toNat < 4096 then 1 else 0) ∧
    s.ic.hitCount ≤ t.ic.hitCount ∧ s.ic.missCount ≤ t.ic.missCount ∧
    s.dc.hitCount ≤ t.dc.hitCount ∧ s.dc.missCount ≤ t.dc.missCount

/-! ## Direct-address and constant instructions -/

/-- R160. -/
def Obligations.LoddLoadsMemoryWord : Prop :=
  ∀ (s : State) (x : Field12), s.dc.Shaped → Coherent s.dc s.memory →
    decode (0x0000#16 + x.setWidth 16) = .ok (.lodd x) ∧
    exec (.lodd x) s = .next { s with
      ac := memRead s.memory x.toNat
      dc := (s.dc.read s.memory x.toNat).2 }

/-- R161. -/
def Obligations.StodStoresAccumulator : Prop :=
  ∀ (s : State) (x : Field12), s.memory.wf → s.dc.Shaped →
    decode (0x1000#16 + x.setWidth 16) = .ok (.stod x) ∧
    ∃ t, exec (.stod x) s = .next t ∧
      t = { s with memory := t.memory, dc := (s.dc.write s.memory x.toNat s.ac).1 } ∧
      StoredWord s.memory t.memory x.toNat s.ac ∧ t.dc.isHit x.toNat = true ∧ t.dc.wordAt x.toNat = s.ac

/-- R162, R163. -/
def Obligations.AdddAndSubdWrap : Prop :=
  ∀ (s : State) (x : Field12), s.dc.Shaped → Coherent s.dc s.memory →
    decode (0x2000#16 + x.setWidth 16) = .ok (.addd x) ∧
    decode (0x3000#16 + x.setWidth 16) = .ok (.subd x) ∧
    exec (.addd x) s = .next { s with
      ac := s.ac + memRead s.memory x.toNat
      dc := (s.dc.read s.memory x.toNat).2 } ∧
    exec (.subd x) s = .next { s with
      ac := s.ac - memRead s.memory x.toNat
      dc := (s.dc.read s.memory x.toNat).2 }

/-- R164. -/
def Obligations.LocoLoadsConstant : Prop :=
  ∀ (s : State) (x : Field12),
    decode (0x7000#16 + x.setWidth 16) = .ok (.loco x) ∧
    ∃ t, exec (.loco x) s = .next t ∧ t = { s with ac := t.ac } ∧ t.ac.toNat = x.toNat ∧
      t.ac.extractLsb' 12 4 = 0#4

/-! ## Stack-relative instructions -/

/-- R170: over every effective address; outside 0..4095 the word is 0 and the data cache is not touched (the spec's own
decision D3, assumption 2). -/
def Obligations.LodlLoadsLocalWord : Prop :=
  ∀ (s : State) (x : Field12) (ea : Word), s.dc.Shaped → Coherent s.dc s.memory →
    ea = s.sp + x.setWidth 16 →
    decode (0x8000#16 + x.setWidth 16) = .ok (.lodl x) ∧
    exec (.lodl x) s = .next { s with
      ac := if ea.toNat < 4096 then memRead s.memory ea.toNat else 0
      dc := if ea.toNat < 4096 then (s.dc.read s.memory ea.toNat).2 else s.dc }

/-- R171: over every effective address; outside 0..4095 nothing at all changes (D3, assumption 2). -/
def Obligations.StolStoresLocalWord : Prop :=
  ∀ (s : State) (x : Field12) (ea : Word), s.memory.wf → s.dc.Shaped → ea = s.sp + x.setWidth 16 →
    decode (0x9000#16 + x.setWidth 16) = .ok (.stol x) ∧
    (4096 ≤ ea.toNat → exec (.stol x) s = .next s) ∧
    ∃ t, exec (.stol x) s = .next t ∧
      t = { s with
        memory := t.memory
        dc := if ea.toNat < 4096 then (s.dc.write s.memory ea.toNat s.ac).1 else s.dc } ∧
      StoredWord s.memory t.memory ea.toNat s.ac ∧
      (ea.toNat < 4096 → t.dc.isHit ea.toNat = true ∧ t.dc.wordAt ea.toNat = s.ac)

/-- R172, R173: over every effective address; outside 0..4095 the accumulator is unchanged (D3, assumption 2). -/
def Obligations.AddlAndSublWrap : Prop :=
  ∀ (s : State) (x : Field12) (ea : Word), s.dc.Shaped → Coherent s.dc s.memory →
    ea = s.sp + x.setWidth 16 →
    decode (0xA000#16 + x.setWidth 16) = .ok (.addl x) ∧
    decode (0xB000#16 + x.setWidth 16) = .ok (.subl x) ∧
    exec (.addl x) s = .next { s with
      ac := if ea.toNat < 4096 then s.ac + memRead s.memory ea.toNat else s.ac
      dc := if ea.toNat < 4096 then (s.dc.read s.memory ea.toNat).2 else s.dc } ∧
    exec (.subl x) s = .next { s with
      ac := if ea.toNat < 4096 then s.ac - memRead s.memory ea.toNat else s.ac
      dc := if ea.toNat < 4096 then (s.dc.read s.memory ea.toNat).2 else s.dc }

/-! ## Jumps -/

/-- R180, R183: by the sign of the accumulator; each is taken exactly when the other is not. -/
def Obligations.JposAndJnegTestSign : Prop :=
  ∀ (s : State) (x : Field12),
    decode (0x4000#16 + x.setWidth 16) = .ok (.jpos x) ∧
    decode (0xC000#16 + x.setWidth 16) = .ok (.jneg x) ∧
    exec (.jpos x) s = .next { s with pc := if 0 ≤ s.ac.toInt then x.setWidth 16 else s.pc } ∧
    exec (.jneg x) s = .next { s with pc := if s.ac.toInt < 0 then x.setWidth 16 else s.pc }

/-- R181, R184: all 16 bits of the accumulator are compared; each is taken exactly when the other is not. -/
def Obligations.JzerAndJnzeTestZero : Prop :=
  ∀ (s : State) (x : Field12),
    decode (0x5000#16 + x.setWidth 16) = .ok (.jzer x) ∧
    decode (0xD000#16 + x.setWidth 16) = .ok (.jnze x) ∧
    exec (.jzer x) s = .next { s with pc := if s.ac = 0 then x.setWidth 16 else s.pc } ∧
    exec (.jnze x) s = .next { s with pc := if s.ac = 0 then s.pc else x.setWidth 16 }

/-- R182. -/
def Obligations.JumpAlwaysTaken : Prop :=
  ∀ (s : State) (x : Field12),
    decode (0x6000#16 + x.setWidth 16) = .ok (.jump x) ∧
    exec (.jump x) s = .next { s with pc := x.setWidth 16 }

/-! ## Call and return -/

/-- R190: over every stack pointer; outside 0..4095 the push is dropped (D3, assumption 2) and the jump still happens. -/
def Obligations.CallPushesNextPc : Prop :=
  ∀ (s : State) (x : Field12) (top : Word), s.memory.wf → s.dc.Shaped → top = s.sp - 1 →
    decode (0xE000#16 + x.setWidth 16) = .ok (.call x) ∧
    ∃ t, exec (.call x) s = .next t ∧
      t = { s with
        sp := top
        pc := x.setWidth 16
        memory := t.memory
        dc := if top.toNat < 4096 then (s.dc.write s.memory top.toNat s.pc).1 else s.dc } ∧
      StoredWord s.memory t.memory top.toNat s.pc

/-- R191: over every stack pointer and every popped word; outside 0..4095 the pop reads 0 (D3, assumption 2). -/
def Obligations.RetnPopsPc : Prop :=
  ∀ s : State, s.dc.Shaped → Coherent s.dc s.memory →
    decode 0xF800#16 = .ok .retn ∧
    exec .retn s = .next { s with
      pc := if s.sp.toNat < 4096 then memRead s.memory s.sp.toNat else 0
      sp := s.sp + 1
      dc := if s.sp.toNat < 4096 then (s.dc.read s.memory s.sp.toNat).2 else s.dc }

/-- R192: CALL and then RETN restore the program counter and the stack pointer; the return address stays in Memory. -/
def Obligations.CallThenRetnRestoresPc : Prop :=
  ∀ (s : State) (x : Field12), s.memory.wf → s.dc.Shaped → (s.sp - 1).toNat < 4096 →
    ∃ t u, exec (.call x) s = .next t ∧ exec .retn t = .next u ∧
      u.pc = s.pc ∧ u.sp = s.sp ∧ u.ac = s.ac ∧ memRead u.memory (s.sp - 1).toNat = s.pc

/-! ## Stack instructions -/

/-- R200: the word at `AC` is read before the stack pointer moves; outside 0..4095 it is 0, and the push is dropped there
(D3, assumption 2). -/
def Obligations.PshiPushesWordAtAccumulator : Prop :=
  ∀ (s : State) (top val : Word), s.memory.wf → s.dc.Shaped → Coherent s.dc s.memory → top = s.sp - 1 →
    val = (if s.ac.toNat < 4096 then memRead s.memory s.ac.toNat else 0) →
    decode 0xF000#16 = .ok .pshi ∧
    ∃ t, exec .pshi s = .next t ∧
      t = { s with sp := top, memory := t.memory, dc := t.dc } ∧
      StoredWord s.memory t.memory top.toNat val ∧
      ∃ d : Cache, d = (if s.ac.toNat < 4096 then (s.dc.read s.memory s.ac.toNat).2 else s.dc) ∧
        t.dc = if top.toNat < 4096 then (d.write s.memory top.toNat val).1 else d

/-- R201: the word at `SP` is read first and stored at `AC`; the stack pointer moves even where the store is dropped (D3,
assumption 2). -/
def Obligations.PopiPopsToAccumulatorAddress : Prop :=
  ∀ (s : State) (val : Word), s.memory.wf → s.dc.Shaped → Coherent s.dc s.memory →
    val = (if s.sp.toNat < 4096 then memRead s.memory s.sp.toNat else 0) →
    decode 0xF200#16 = .ok .popi ∧
    ∃ t, exec .popi s = .next t ∧
      t = { s with sp := s.sp + 1, memory := t.memory, dc := t.dc } ∧
      StoredWord s.memory t.memory s.ac.toNat val ∧
      ∃ d : Cache, d = (if s.sp.toNat < 4096 then (s.dc.read s.memory s.sp.toNat).2 else s.dc) ∧
        t.dc = if s.ac.toNat < 4096 then (d.write s.memory s.ac.toNat val).1 else d

/-- R202: over every stack pointer; outside 0..4095 the store is dropped (D3, assumption 2). -/
def Obligations.PushStoresAccumulator : Prop :=
  ∀ (s : State) (top : Word), s.memory.wf → s.dc.Shaped → top = s.sp - 1 →
    decode 0xF400#16 = .ok .push ∧
    ∃ t, exec .push s = .next t ∧
      t = { s with
        sp := top
        memory := t.memory
        dc := if top.toNat < 4096 then (s.dc.write s.memory top.toNat s.ac).1 else s.dc } ∧
      StoredWord s.memory t.memory top.toNat s.ac

/-- R203, with its property that PUSH and then POP restore `AC` and `SP`; outside 0..4095 the pop reads 0 (D3,
assumption 2). -/
def Obligations.PopLoadsAccumulator : Prop :=
  (∀ s : State, s.dc.Shaped → Coherent s.dc s.memory →
    decode 0xF600#16 = .ok .pop ∧
    exec .pop s = .next { s with
      ac := if s.sp.toNat < 4096 then memRead s.memory s.sp.toNat else 0
      sp := s.sp + 1
      dc := if s.sp.toNat < 4096 then (s.dc.read s.memory s.sp.toNat).2 else s.dc }) ∧
  ∀ s : State, s.dc.Shaped → (s.sp - 1).toNat < 4096 →
    ∃ t u, exec .push s = .next t ∧ exec .pop t = .next u ∧ u.ac = s.ac ∧ u.sp = s.sp

/-- R204. -/
def Obligations.SwapExchanges : Prop :=
  ∀ s : State,
    decode 0xFA00#16 = .ok .swap ∧ exec .swap s = .next { s with ac := s.sp, sp := s.ac }

/-- R205, R206: the stack pointer moves by the unsigned 8-bit amount, mod 65536, and nothing else changes. -/
def Obligations.InspAndDespMoveStackPointer : Prop :=
  ∀ (s : State) (y : Field8),
    decode (0xFC00#16 + y.setWidth 16) = .ok (.insp y) ∧
    decode (0xFE00#16 + y.setWidth 16) = .ok (.desp y) ∧
    exec (.insp y) s = .next { s with sp := s.sp + y.setWidth 16 } ∧
    exec (.desp y) s = .next { s with sp := s.sp - y.setWidth 16 }

/-- R210: HALT sets the flag and leaves one flush entry in each cache's log. That the flush is an entry of `eventLog` is the
spec's own decision D8 (assumption 8). -/
def Obligations.HaltSetsFlagAndFlushes : Prop :=
  ∀ s : State,
    decode 0xFFFF#16 = .ok .halt ∧
    exec .halt s = .next { s with
      halted := true
      ic := { s.ic with eventLog := s.ic.eventLog ++ [.flush] }
      dc := { s.dc with eventLog := s.dc.eventLog ++ [.flush] } }

/-! ## The assembler -/

/-- R239, R240: the source's two examples. -/
def Obligations.SourceExamplesAssemble : Prop :=
  compile "start: LOCO 5\nADDD start\nHALT".toList = { binary := [0x7005, 0x2000, 0xFFFF], errors := [] } ∧
  compile "LODD missing_label".toList = { binary := [], errors := [(1, .badOperand)] }

/-- R220, R237: one word or one error per queued line: the words in source order, the errors with their 1-based numbers in
the queue. -/
def Obligations.EachQueuedLineGivesWordOrError : Prop :=
  ∀ (p : AsmParams) (src : List Char) (st : AsmState), st = pass1 p src →
    (compileWith p src).binary =
      st.instructionLines.filterMap (fun b =>
        match assembleLine p st.labelTable b with | .word w => some w | .error _ => none) ∧
    (compileWith p src).errors =
      (st.instructionLines.zipIdx 1).filterMap (fun b =>
        match assembleLine p st.labelTable b.1 with | .word _ => none | .error e => some (b.2, e)) ∧
    (compileWith p src).binary.length + (compileWith p src).errors.length = st.instructionLines.length

/-- R229, R231: a labelled line binds its label to the current address counter, replacing an earlier definition of the name
(the spec's own decision D11, assumption 11) and no other; the counter counts the queued bodies. -/
def Obligations.LabelBindsToCounterLastWins : Prop :=
  (∀ (p : AsmParams) (st : AsmState) (line name body : List Char),
    splitLabel (trim (stripComment p line)) = (some name, body) →
    lookupLabel (pass1Line p st line).labelTable name = some st.addressCounter ∧
    (∀ other, other ≠ name →
      lookupLabel (pass1Line p st line).labelTable other = lookupLabel st.labelTable other) ∧
    (pass1Line p st line).instructionLines =
      if body = [] then st.instructionLines else st.instructionLines ++ [body]) ∧
  ∀ (p : AsmParams) (src : List Char), (pass1 p src).addressCounter = (pass1 p src).instructionLines.length ∧
    ∀ e ∈ (pass1 p src).labelTable, e.2 ≤ (pass1 p src).addressCounter

/-- R230: in a binary without errors the word of the `k`-th queued body (from 0) is the one `loadProgram` puts at address
`k`, which is the address pass 1 gave it. -/
def Obligations.ErrorFreeBodyLandsAtItsAddress : Prop :=
  ∀ (p : AsmParams) (src body : List Char) (s t : State) (k : Nat),
    compileAndLoad p src s = some t → (pass1 p src).instructionLines[k]? = some body → k < 4096 →
    ∃ w, assembleLine p (pass1 p src).labelTable body = .word w ∧ memRead t.memory k = w

/-- 93_implementation_defined.md U8: a source text inside the shown subset that assembles without errors under the strict
reading of literals assembles to the same binary under the spec's default literal syntax (D13, assumption 13) and with any
comment marker that does not occur in it (D12, assumption 12). -/
def Obligations.AdmittedSourceNeedsNoDecision : Prop :=
  ∀ (c d : Char) (src : List Char),
    sourceAdmitted { commentMarker := c, intSyntax := .unsignedDecimal } src = true →
    (compileWith { commentMarker := c, intSyntax := .unsignedDecimal } src).errors = [] →
    src.contains d = false →
    compileWith { commentMarker := d, intSyntax := .decimalAndHex } src =
      compileWith { commentMarker := c, intSyntax := .unsignedDecimal } src

/-- R232 to R236: what one body gives, by its tokens. An operand is a label first and an integer literal only then; a first
token that is no mnemonic is a literal first and a label only then; a mnemonic that takes no operand ignores what follows;
and every queued body has a first token. That surplus tokens are ignored is the spec's own decision D15 (assumption 15),
as are the exact spelling of a mnemonic (D14, assumption 14), which tokens are literals (D13, assumption 13) and the kinds
that stand for the errors (D16, assumption 16). -/
def Obligations.BodyGivesWordOrErrorByItsTokens : Prop :=
  (∀ (p : AsmParams) (src body : List Char), body ∈ (pass1 p src).instructionLines → tokens body ≠ []) ∧
  ∀ (p : AsmParams) (table : List (List Char × Nat)) (body first : List Char) (rest : List (List Char)),
    tokens body = first :: rest →
    (∀ m : Mnemonic, first = m.spelling →
      assembleLine p table body =
        if m.base.toNat < 0xF000 ∨ m = .insp ∨ m = .desp then
          match rest with
          | [] => .error .missingOperand
          | opd :: _ =>
            match lookupLabel table opd, intLiteral p opd with
            | some a, _ => .word (encodeOperand m a)
            | none, some v => .word (encodeOperand m v)
            | none, none => .error .badOperand
        else .word m.base) ∧
    ((∀ m : Mnemonic, first ≠ m.spelling) →
      assembleLine p table body =
        match intLiteral p first, lookupLabel table first with
        | some v, _ => .word (mask16 v)
        | none, some a => .word (mask16 a)
        | none, none => .error .unknownToken)
end

