-- ==== Sys2Proof/Laws/Arith.lean ====
section
/-! SUPPORT. What the arithmetic, the conditions and the operand forms compute, in bit-vector and number terms. -/

namespace Sys2Proof.Machine

theorem mask16_toNat (x : Int) : ((mask16 x).toNat : Int) = x % 65536 := by
  unfold mask16
  rw [BitVec.toNat_ofNat]
  omega

theorem mask16_toNat_self (w : Word) : mask16 (w.toNat : Int) = w := by
  apply BitVec.eq_of_toNat_eq
  have := mask16_toNat (w.toNat : Int)
  omega

/-- R162: the sum wraps mod 65536. -/
theorem addWord_toNat (a b : Word) : (addWord a b).toNat = (a.toNat + b.toNat) % 65536 := by
  have := mask16_toNat ((a.toNat : Int) + (b.toNat : Int))
  unfold addWord
  omega

/-- R163: the difference wraps mod 65536. -/
theorem subWord_toNat (a b : Word) : (subWord a b).toNat = (a.toNat + (65536 - b.toNat)) % 65536 := by
  have := mask16_toNat ((a.toNat : Int) - (b.toNat : Int))
  have := b.isLt
  unfold subWord
  omega

theorem addWord_eq (a b : Word) : addWord a b = a + b := by
  apply BitVec.eq_of_toNat_eq
  rw [addWord_toNat, BitVec.toNat_add]

theorem subWord_eq (a b : Word) : subWord a b = a - b := by
  apply BitVec.eq_of_toNat_eq
  have := b.isLt
  rw [subWord_toNat, BitVec.toNat_sub, Nat.add_comm]

/-- R180: taken iff `AC <= 32767`. -/
theorem condPos_iff (v : Word) : condPos v = true ↔ v.toNat ≤ 32767 := by
  have := v.isLt
  rw [condPos, decide_eq_true_eq, signed]
  split <;> omega

/-- R183: JNEG is taken exactly when JPOS is not. -/
theorem condNeg_iff (v : Word) : condNeg v = true ↔ 32768 ≤ v.toNat := by
  have := v.isLt
  rw [condNeg, decide_eq_true_eq, signed]
  split <;> omega

theorem condZero_iff (v : Word) : condZero v = true ↔ v = 0 := by
  simp only [condZero, decide_eq_true_eq, BitVec.toNat_eq]
  rfl

theorem condNonZero_iff (v : Word) : condNonZero v = true ↔ v ≠ 0 := by
  simp only [condNonZero, decide_eq_true_eq, ne_eq, BitVec.toNat_eq]
  rfl

theorem directAddress_toNat (x : Field12) : (directAddress x).toNat = x.toNat := by
  have := x.isLt
  simp only [directAddress, BitVec.toNat_setWidth]
  omega

theorem jumpTarget_toNat (x : Field12) : (jumpTarget x).toNat = x.toNat :=
  directAddress_toNat x

theorem constantOperand_toNat (x : Field12) : (constantOperand x).toNat = x.toNat :=
  directAddress_toNat x

theorem stackAmount_toNat (y : Field8) : (stackAmount y).toNat = y.toNat := by
  have := y.isLt
  simp only [stackAmount, BitVec.toNat_setWidth]
  omega

theorem localAddress_toNat (s : State) (x : Field12) :
    (localAddress s x).toNat = (s.sp.toNat + x.toNat) % 65536 := by
  rw [localAddress, addWord_toNat, ← directAddress_toNat x]
  rfl

theorem pushAddress_eq (s : State) : pushAddress s = s.sp - 1 := subWord_eq _ _

theorem poppedSp_eq (s : State) : poppedSp s = s.sp + 1 := addWord_eq _ _

/-- A push and then a pop bring the stack pointer back. -/
theorem sub_one_add_one (w : Word) : addWord (subWord w 1) 1 = w := by
  rw [addWord_eq, subWord_eq]
  exact BitVec.sub_add_cancel w 1

end Sys2Proof.Machine
end

