-- ==== Sys2Proof/Laws/Memory.lean ====
section
/-! SUPPORT. The laws of the backing Memory: a read after a write, the canonical form, and that equal contents are equal
data. -/

namespace Sys2Proof.Machine

@[simp] theorem readByte_nil (b : Nat) : readByte [] b = Memory.unlisted := rfl

/-- Every address of a cell of a canonical memory lies above the address of the first one. -/
theorem Memory.wf_cons {k : Nat} {v : Byte} {m : Memory} (h : Memory.wf ((k, v) :: m)) :
    (∀ p ∈ m, k < p.1) ∧ k < memBytes ∧ v ≠ Memory.unlisted ∧ Memory.wf m := by
  obtain ⟨hp, hc⟩ := h
  rw [List.pairwise_cons] at hp
  exact ⟨hp.1, (hc (k, v) (by simp)).1, (hc (k, v) (by simp)).2, hp.2, fun p hm => hc p (by simp [hm])⟩

theorem Memory.wf_nil : Memory.wf [] := ⟨List.Pairwise.nil, by simp⟩

/-- An address below every listed one reads as unlisted. -/
theorem readByte_below {m : Memory} {b : Nat} (h : ∀ p ∈ m, b < p.1) : readByte m b = Memory.unlisted := by
  induction m with
  | nil => rfl
  | cons p m ih =>
    obtain ⟨k, v⟩ := p
    have hk : b < k := h (k, v) (by simp)
    rw [readByte, if_neg (by omega)]
    exact ih fun q hq => h q (by simp [hq])

theorem readByte_consCell {m : Memory} {b : Nat} (v : Byte) (c : Nat) (h : ∀ p ∈ m, b < p.1) :
    readByte (consCell b v m) c = if c = b then v else readByte m c := by
  unfold consCell
  by_cases hv : v = Memory.unlisted
  · rw [if_pos hv]
    by_cases hc : c = b
    · rw [if_pos hc, hc, hv, readByte_below h]
    · rw [if_neg hc]
  · rw [if_neg hv, readByte]

/-- Read after write, one stored byte. -/
theorem readByte_writeByte {m : Memory} (h : m.wf) (b : Nat) (v : Byte) (c : Nat) :
    readByte (writeByte m b v) c = if c = b then v else readByte m c := by
  induction m with
  | nil => exact readByte_consCell v c (by simp)
  | cons p m ih =>
    obtain ⟨k, w⟩ := p
    obtain ⟨hk, -, -, hm⟩ := Memory.wf_cons h
    rw [writeByte]
    by_cases hlt : b < k
    · rw [if_pos hlt]
      refine readByte_consCell v c fun p hp => ?_
      rcases List.mem_cons.1 hp with rfl | hp
      · exact hlt
      · exact lt_trans hlt (hk p hp)
    · rw [if_neg hlt]
      by_cases heq : b = k
      · subst heq
        rw [if_pos rfl, readByte_consCell v c hk, readByte]
        split <;> rfl
      · rw [if_neg heq, readByte, readByte, ih hm]
        split
        · rw [if_neg (by omega)]
        · rfl

theorem consCell_wf {m : Memory} {b : Nat} (v : Byte) (h : m.wf) (hb : b < memBytes) (hm : ∀ p ∈ m, b < p.1) :
    (consCell b v m).wf := by
  unfold consCell
  split
  · exact h
  · rename_i hv
    refine ⟨List.pairwise_cons.2 ⟨hm, h.1⟩, fun p hp => ?_⟩
    rcases List.mem_cons.1 hp with rfl | hp
    · exact ⟨hb, hv⟩
    · exact h.2 p hp

/-- The addresses a write leaves listed are the old ones and the one written. -/
theorem mem_writeByte {m : Memory} {b : Nat} {v : Byte} {p : Host.Cell} (h : p ∈ writeByte m b v) :
    p ∈ m ∨ p.1 = b := by
  have cons_case : ∀ m' : Memory, p ∈ consCell b v m' → p ∈ m' ∨ p.1 = b := by
    intro m' hp
    unfold consCell at hp
    split at hp
    · exact .inl hp
    · rcases List.mem_cons.1 hp with rfl | hp
      · exact .inr rfl
      · exact .inl hp
  induction m with
  | nil => exact cons_case [] h
  | cons q m ih =>
    obtain ⟨k, w⟩ := q
    rw [writeByte] at h
    split at h
    · exact cons_case _ h
    · split at h
      · rcases cons_case _ h with h | h
        · exact .inl (List.mem_cons_of_mem _ h)
        · exact .inr h
      · rcases List.mem_cons.1 h with rfl | h
        · exact .inl (by simp)
        · rcases ih h with h | h
          · exact .inl (List.mem_cons_of_mem _ h)
          · exact .inr h

/-- A write of one stored byte keeps the canonical form. -/
theorem writeByte_wf {m : Memory} (h : m.wf) {b : Nat} (hb : b < memBytes) (v : Byte) : (writeByte m b v).wf := by
  induction m with
  | nil => exact consCell_wf v Memory.wf_nil hb (by simp)
  | cons p m ih =>
    obtain ⟨k, w⟩ := p
    obtain ⟨hk, hkb, hw, hm⟩ := Memory.wf_cons h
    rw [writeByte]
    split
    · rename_i hlt
      refine consCell_wf v h hb fun p hp => ?_
      rcases List.mem_cons.1 hp with rfl | hp
      · exact hlt
      · exact lt_trans hlt (hk p hp)
    · split
      · rename_i heq
        subst heq
        exact consCell_wf v hm hb hk
      · have hkb' : k < b := by omega
        refine ⟨List.pairwise_cons.2 ⟨fun p hp => ?_, (ih hm).1⟩, fun p hp => ?_⟩
        · rcases mem_writeByte hp with hp | hp
          · exact hk p hp
          · rw [hp]; exact hkb'
        · rcases List.mem_cons.1 hp with rfl | hp
          · exact ⟨hkb, hw⟩
          · exact (ih hm).2 p hp

/-- Two canonical memories that read the same are the same list. -/
theorem Memory.ext_of_wf {m n : Memory} (hm : m.wf) (hn : n.wf) (h : ∀ b, readByte m b = readByte n b) : m = n := by
  induction m generalizing n with
  | nil =>
    cases n with
    | nil => rfl
    | cons q n =>
      obtain ⟨k, v⟩ := q
      obtain ⟨-, -, hv, -⟩ := Memory.wf_cons hn
      have := h k
      rw [readByte_nil, readByte, if_pos rfl] at this
      exact absurd this.symm hv
  | cons p m ih =>
    obtain ⟨j, u⟩ := p
    obtain ⟨hj, -, hu, hm'⟩ := Memory.wf_cons hm
    cases n with
    | nil =>
      have := h j
      rw [readByte_nil, readByte, if_pos rfl] at this
      exact absurd this hu
    | cons q n =>
      obtain ⟨k, v⟩ := q
      obtain ⟨hk, -, hv, hn'⟩ := Memory.wf_cons hn
      have hjk : j = k := by
        rcases Nat.lt_trichotomy j k with hlt | heq | hlt
        · have := h j
          rw [readByte, if_pos rfl, readByte, if_neg (by omega),
            readByte_below fun p hp => lt_trans hlt (hk p hp)] at this
          exact absurd this hu
        · exact heq
        · have := h k
          rw [readByte, if_neg (by omega), readByte, if_pos rfl,
            readByte_below fun p hp => lt_trans hlt (hj p hp)] at this
          exact absurd this.symm hv
      subst hjk
      have huv : u = v := by
        have := h j
        rwa [readByte, if_pos rfl, readByte, if_pos rfl] at this
      subst huv
      congr 1
      refine ih hm' hn' fun b => ?_
      by_cases hb : b = j
      · subst hb
        rw [readByte_below hj, readByte_below hk]
      · have := h b
        rwa [readByte, if_neg hb, readByte, if_neg hb] at this

/-- Read after write, one word. -/
theorem loadWord_storeWord {m : Memory} (h : m.wf) {a : Nat} (ha : a < memWords) (v : Word) (b : Nat) :
    loadWord (storeWord m a v) b = if b = a then v else loadWord m b := by
  have h1 : (writeByte m (2 * a) (v.extractLsb' 0 8)).wf := writeByte_wf h (by unfold memBytes; omega) _
  unfold loadWord storeWord
  simp only [readByte_writeByte h1, readByte_writeByte h]
  by_cases hb : b = a
  · subst hb
    rw [if_pos rfl, if_neg (by omega), if_pos rfl, if_pos rfl]
    apply BitVec.eq_of_toNat_eq
    have := v.isLt
    rw [BitVec.toNat_append, BitVec.extractLsb'_toNat, BitVec.extractLsb'_toNat,
      Nat.shiftLeft_eq, ← Nat.shiftLeft_eq, ← Nat.shiftLeft_add_eq_or_of_lt (Nat.mod_lt _ (by norm_num)),
      Nat.shiftLeft_eq, Nat.shiftRight_eq_div_pow, Nat.shiftRight_eq_div_pow]
    omega
  · rw [if_neg hb, if_neg (by omega), if_neg (by omega), if_neg (by omega), if_neg (by omega)]

theorem storeWord_wf {m : Memory} (h : m.wf) {a : Nat} (ha : a < memWords) (v : Word) : (storeWord m a v).wf :=
  writeByte_wf (writeByte_wf h (by unfold memBytes; omega) _) (by unfold memBytes; omega) _

/-- R61, R62: read after write, 0 outside 0..4095 and no write there. -/
theorem memRead_memWrite {m : Memory} (h : m.wf) (a : Nat) (v : Word) (b : Nat) :
    memRead (memWrite m a v) b = if b = a ∧ a < memWords then v else memRead m b := by
  unfold memRead memWrite
  by_cases ha : a < memWords
  · simp only [if_pos ha, loadWord_storeWord h ha]
    by_cases hb : b = a
    · subst hb; simp [ha]
    · simp [hb]
  · simp [ha]

theorem memRead_memWrite_self {m : Memory} (h : m.wf) {a : Nat} (ha : a < memWords) (v : Word) :
    memRead (memWrite m a v) a = v := by
  rw [memRead_memWrite h, if_pos ⟨rfl, ha⟩]

theorem memRead_memWrite_of_ne {m : Memory} (h : m.wf) {a b : Nat} (hb : b ≠ a) (v : Word) :
    memRead (memWrite m a v) b = memRead m b := by
  rw [memRead_memWrite h, if_neg (by simp [hb])]

/-- R62: a write keeps the canonical form. -/
theorem memWrite_wf {m : Memory} (h : m.wf) (a : Nat) (v : Word) : (memWrite m a v).wf := by
  unfold memWrite
  split
  · rename_i ha; exact storeWord_wf h ha v
  · exact h

/-- R62: a write leaves every stored byte outside its word alone. -/
theorem readByte_memWrite {m : Memory} (h : m.wf) (a : Nat) (v : Word) {c : Nat} (hc : c / 2 ≠ a) :
    readByte (memWrite m a v) c = readByte m c := by
  unfold memWrite storeWord
  split
  · rename_i ha
    rw [readByte_writeByte (writeByte_wf h (by unfold memBytes; omega) _), if_neg (by omega),
      readByte_writeByte h, if_neg (by omega)]
  · rfl

/-- R30: an empty Memory reads 0 everywhere. -/
@[simp] theorem memRead_nil (a : Nat) : memRead [] a = 0 := by
  have h : loadWord [] a = 0 := by
    show (0#8 ++ 0#8 : Word) = 0
    decide
  rw [memRead, h, ite_self]

/-- R61: outside 0..4095 a read gives 0. -/
theorem memRead_out (m : Memory) {a : Nat} (ha : memWords ≤ a) : memRead m a = 0 := by
  rw [memRead, if_neg (by omega)]

end Sys2Proof.Machine
end

