-- ==== Sys2Proof/Laws/Cache.lean ====
section
/-! SUPPORT. The laws of the cache controller: mapping (R66), what an access changes (R67 to R69), the shape it keeps (R31),
its counting (R33, R34, R89), and the coherence of a cache that sees every write (R72, R83). -/

namespace Sys2Proof.Machine

/-! ## Mapping -/

section Mapping

variable {c : Cache}

theorem Cache.Shaped.lineIndex_lt (h : c.Shaped) (a : Nat) : c.lineIndex a < c.lines.length :=
  Nat.mod_lt _ h.someLine

theorem Cache.Shaped.offset_lt (h : c.Shaped) (a : Nat) : c.offset a < c.blockSize :=
  Nat.mod_lt _ h.someWord

theorem Cache.Shaped.lineAt_eq (h : c.Shaped) (a : Nat) :
    c.lineAt a = c.lines[c.lineIndex a]'(h.lineIndex_lt a) := by
  rw [Cache.lineAt, List.getD_eq_getElem _ _ (h.lineIndex_lt a)]

theorem Cache.Shaped.lineAt_mem (h : c.Shaped) (a : Nat) : c.lineAt a ∈ c.lines := by
  rw [h.lineAt_eq a]; exact List.getElem_mem _

/-- R66: the word of `a`'s block at `a`'s offset is the word at `a`. -/
theorem Cache.mappedAddress_self (c : Cache) (a : Nat) :
    c.mappedAddress (c.lineIndex a) (c.tagOf a) (c.offset a) = a := by
  unfold Cache.mappedAddress Cache.lineIndex Cache.tagOf Cache.offset
  rw [← Nat.div_div_eq_div_mul, Nat.div_add_mod', Nat.div_add_mod']

theorem Cache.mappedAddress_base (c : Cache) (a j : Nat) :
    c.mappedAddress (c.lineIndex a) (c.tagOf a) j = c.blockBase a + j := by
  unfold Cache.mappedAddress Cache.lineIndex Cache.tagOf Cache.blockBase
  rw [← Nat.div_div_eq_div_mul, Nat.div_add_mod']

/-- R66: a line, a tag and an offset determine the address and are determined by it. -/
theorem Cache.mappedAddress_inj {i tag j a : Nat} (hi : i < c.lines.length) (hj : j < c.blockSize)
    (h : c.mappedAddress i tag j = a) : i = c.lineIndex a ∧ tag = c.tagOf a ∧ j = c.offset a := by
  have hK : 0 < c.blockSize := by omega
  have hN : 0 < c.lines.length := by omega
  have hdiv : a / c.blockSize = tag * c.lines.length + i := by
    rw [← h, Cache.mappedAddress, Nat.add_comm, Nat.add_mul_div_right _ _ hK, Nat.div_eq_of_lt hj, Nat.zero_add]
  refine ⟨?_, ?_, ?_⟩
  · rw [Cache.lineIndex, hdiv, Nat.add_comm, Nat.add_mul_mod_self_right, Nat.mod_eq_of_lt hi]
  · rw [Cache.tagOf, ← Nat.div_div_eq_div_mul, hdiv, Nat.add_comm, Nat.add_mul_div_right _ _ hN,
      Nat.div_eq_of_lt hi, Nat.zero_add]
  · rw [Cache.offset, ← h, Cache.mappedAddress, Nat.add_comm, Nat.add_mul_mod_self_right, Nat.mod_eq_of_lt hj]

/-- R66: a hit, read off the line. -/
theorem Cache.isHit_iff (c : Cache) (a : Nat) :
    c.isHit a = true ↔ (c.lineAt a).valid = true ∧ (c.lineAt a).tag = c.tagOf a := by
  simp [Cache.isHit]

end Mapping

/-! ## What an access leaves alone -/

section Access

variable (c : Cache) (m : Memory) (a : Nat)

@[simp] theorem Cache.access_blockSize : (c.access m a).blockSize = c.blockSize := by
  unfold Cache.access; split <;> rfl

@[simp] theorem Cache.access_length : (c.access m a).lines.length = c.lines.length := by
  unfold Cache.access
  split
  · rfl
  · exact List.length_set ..

@[simp] theorem Cache.setWordAt_blockSize (v : Word) : (c.setWordAt a v).blockSize = c.blockSize := rfl
@[simp] theorem Cache.setWordAt_length (v : Word) : (c.setWordAt a v).lines.length = c.lines.length :=
  List.length_set ..
@[simp] theorem Cache.setWordAt_hitCount (v : Word) : (c.setWordAt a v).hitCount = c.hitCount := rfl
@[simp] theorem Cache.setWordAt_missCount (v : Word) : (c.setWordAt a v).missCount = c.missCount := rfl
@[simp] theorem Cache.setWordAt_eventLog (v : Word) : (c.setWordAt a v).eventLog = c.eventLog := rfl
@[simp] theorem Cache.flushAll_lines : c.flushAll.lines = c.lines := rfl
@[simp] theorem Cache.flushAll_blockSize : c.flushAll.blockSize = c.blockSize := rfl
@[simp] theorem Cache.flushAll_hitCount : c.flushAll.hitCount = c.hitCount := rfl
@[simp] theorem Cache.flushAll_missCount : c.flushAll.missCount = c.missCount := rfl
@[simp] theorem Cache.flushAll_eventLog : c.flushAll.eventLog = c.eventLog ++ [.flush] := rfl

@[simp] theorem Cache.access_lineIndex (b : Nat) : (c.access m a).lineIndex b = c.lineIndex b := by
  simp [Cache.lineIndex]
@[simp] theorem Cache.access_tagOf (b : Nat) : (c.access m a).tagOf b = c.tagOf b := by
  simp [Cache.tagOf]
@[simp] theorem Cache.access_offset (b : Nat) : (c.access m a).offset b = c.offset b := by
  simp [Cache.offset]
@[simp] theorem Cache.setWordAt_lineIndex (v : Word) (b : Nat) : (c.setWordAt a v).lineIndex b = c.lineIndex b := by
  simp [Cache.lineIndex]
@[simp] theorem Cache.setWordAt_tagOf (v : Word) (b : Nat) : (c.setWordAt a v).tagOf b = c.tagOf b := by
  simp [Cache.tagOf]
@[simp] theorem Cache.setWordAt_offset (v : Word) (b : Nat) : (c.setWordAt a v).offset b = c.offset b := by
  simp [Cache.offset]

/-- R68, R69: an access that hits moves no line. -/
theorem Cache.access_of_hit (h : c.isHit a = true) :
    c.access m a = { c with hitCount := c.hitCount + 1, eventLog := c.eventLog ++ [.hit a] } := by
  rw [Cache.access, if_pos h]; rfl

/-- R68, R69: an access that misses replaces one line by the block read from Memory. -/
theorem Cache.access_of_miss (h : c.isHit a = false) :
    c.access m a =
      { c with
        lines := c.lines.set (c.lineIndex a)
          { valid := true, tag := c.tagOf a, dirty := (c.lineAt a).dirty, block := c.fetchBlock m a }
        missCount := c.missCount + 1
        eventLog := c.eventLog ++ [.miss a] } := by
  rw [Cache.access, if_neg (by simp [h])]; rfl

/-- R68, R69: an access is one of the two; the one fact later proofs cite. -/
theorem Cache.access_cases :
    (c.isHit a = true ∧
      c.access m a = { c with hitCount := c.hitCount + 1, eventLog := c.eventLog ++ [.hit a] }) ∨
    (c.isHit a = false ∧
      c.access m a =
        { c with
          lines := c.lines.set (c.lineIndex a)
            { valid := true, tag := c.tagOf a, dirty := (c.lineAt a).dirty, block := c.fetchBlock m a }
          missCount := c.missCount + 1
          eventLog := c.eventLog ++ [.miss a] }) := by
  cases h : c.isHit a
  · exact .inr ⟨rfl, c.access_of_miss m a h⟩
  · exact .inl ⟨rfl, c.access_of_hit m a h⟩

/-- R67: an access changes no line but the one `a` maps to. -/
theorem Cache.access_other {i : Nat} (hi : i ≠ c.lineIndex a) : (c.access m a).lines[i]? = c.lines[i]? := by
  rcases c.access_cases m a with ⟨-, h⟩ | ⟨-, h⟩
  · rw [h]
  · rw [h]; exact List.getElem?_set_ne (Ne.symm hi)

end Access

/-! ## Shape, counting, coherence -/

section Kept

variable {c : Cache} {m : Memory}

@[simp] theorem Cache.fetchBlock_length (c : Cache) (m : Memory) (a : Nat) :
    (c.fetchBlock m a).length = c.blockSize := by
  simp [Cache.fetchBlock]

theorem Cache.Shaped.set (h : c.Shaped) {i : Nat} {l : CacheLine} (hb : l.block.length = c.blockSize)
    (hd : l.dirty = false) (x y : Nat) (log : List CacheEvent) :
    Cache.Shaped { c with lines := c.lines.set i l, hitCount := x, missCount := y, eventLog := log } where
  someLine := by simpa using h.someLine
  someWord := h.someWord
  blocks := fun k hk => by
    rcases List.mem_or_eq_of_mem_set hk with hk | rfl
    · exact h.blocks k hk
    · exact hb
  clean := fun k hk => by
    rcases List.mem_or_eq_of_mem_set hk with hk | rfl
    · exact h.clean k hk
    · exact hd

theorem Cache.Shaped.access (h : c.Shaped) (m : Memory) (a : Nat) : (c.access m a).Shaped := by
  rcases c.access_cases m a with ⟨-, e⟩ | ⟨-, e⟩
  · rw [e]; exact ⟨h.someLine, h.someWord, h.blocks, h.clean⟩
  · rw [e]
    exact h.set (l := ⟨true, c.tagOf a, (c.lineAt a).dirty, c.fetchBlock m a⟩) (c.fetchBlock_length m a)
      (h.clean (c.lineAt a) (h.lineAt_mem a)) _ _ _

theorem Cache.Shaped.setWordAt (h : c.Shaped) (a : Nat) (v : Word) : (c.setWordAt a v).Shaped := by
  refine h.set (l := { c.lineAt a with block := (c.lineAt a).block.set (c.offset a) v }) ?_ ?_ _ _ _
  · rw [List.length_set]; exact h.blocks _ (h.lineAt_mem a)
  · exact h.clean (c.lineAt a) (h.lineAt_mem a)

theorem Cache.Shaped.flushAll (h : c.Shaped) : c.flushAll.Shaped :=
  ⟨h.someLine, h.someWord, h.blocks, h.clean⟩

theorem Cache.Shaped.empty {p : CacheParams} (h : p.wellFormed = true) : (Cache.empty p).Shaped := by
  simp only [CacheParams.wellFormed, Bool.and_eq_true, decide_eq_true_eq] at h
  refine ⟨by simpa [Cache.empty] using h.1, h.2, fun l hl => ?_, fun l hl => ?_⟩
  · rw [List.eq_of_mem_replicate hl]; simp [CacheLine.invalid, Cache.empty]
  · rw [List.eq_of_mem_replicate hl]; rfl

theorem Cache.Counted.access (h : c.Counted) (m : Memory) (a : Nat) : (c.access m a).Counted := by
  rcases c.access_cases m a with ⟨-, e⟩ | ⟨-, e⟩
  · rw [e]; exact ⟨by simp [hitEvents, h.hits], by simp [missEvents, h.misses]⟩
  · rw [e]; exact ⟨by simp [hitEvents, h.hits], by simp [missEvents, h.misses]⟩

theorem Cache.Counted.setWordAt (h : c.Counted) (a : Nat) (v : Word) : (c.setWordAt a v).Counted := ⟨h.hits, h.misses⟩

theorem Cache.Counted.flushAll (h : c.Counted) : c.flushAll.Counted :=
  ⟨by simp [hitEvents, h.hits], by simp [missEvents, h.misses]⟩

theorem Cache.Counted.empty (p : CacheParams) : (Cache.empty p).Counted := ⟨rfl, rfl⟩

/-- R72: after an access of `a`, `a` hits. -/
theorem Cache.Shaped.access_isHit (h : c.Shaped) (m : Memory) (a : Nat) : (c.access m a).isHit a = true := by
  rcases c.access_cases m a with ⟨hit, e⟩ | ⟨-, e⟩
  · rw [e]; exact hit
  · rw [Cache.isHit_iff, (h.access m a).lineAt_eq a, Cache.access_tagOf]
    simp only [Cache.access_lineIndex]
    simp [e]

/-- R68: what an access that misses leaves in the line. -/
theorem Cache.Shaped.access_miss_lineAt (h : c.Shaped) (m : Memory) {a : Nat} (hm : c.isHit a = false) :
    (c.access m a).lineAt a =
      { valid := true, tag := c.tagOf a, dirty := false, block := c.fetchBlock m a } := by
  have hd := h.clean _ (h.lineAt_mem a)
  rw [(h.access m a).lineAt_eq a]
  simp only [Cache.access_lineIndex]
  simp [c.access_of_miss m a hm, hd]

/-- R68: what an access that hits leaves in the line. -/
theorem Cache.access_hit_lineAt (c : Cache) (m : Memory) {a : Nat} (hm : c.isHit a = true) :
    (c.access m a).lineAt a = c.lineAt a := by
  rw [c.access_of_hit m a hm]; rfl

/-- The word of `a`'s block at offset `j`, as a miss reads it. -/
theorem Cache.fetchBlock_get (c : Cache) (m : Memory) (a : Nat) {j : Nat} (hj : j < c.blockSize) :
    (c.fetchBlock m a)[j]? = some (memRead m (c.blockBase a + j)) := by
  simp [Cache.fetchBlock, hj]

/-- R68: a miss returns the word of Memory, whatever the cache held. -/
theorem Cache.Shaped.read_of_miss (h : c.Shaped) (m : Memory) {a : Nat} (hm : c.isHit a = false) :
    (c.read m a).1 = memRead m a := by
  unfold Cache.read Cache.wordAt
  rw [h.access_miss_lineAt m hm, Cache.access_offset, List.getD_eq_getElem?_getD, c.fetchBlock_get m a (h.offset_lt a),
    ← c.mappedAddress_base, c.mappedAddress_self]
  rfl

/-- R68: a hit returns the line's copy and Memory is not consulted. -/
theorem Cache.read_of_hit (c : Cache) (m : Memory) {a : Nat} (hm : c.isHit a = true) : (c.read m a).1 = c.wordAt a := by
  unfold Cache.read Cache.wordAt
  rw [c.access_hit_lineAt m hm, Cache.access_offset]

/-- R83: in a coherent cache a hit holds the word of Memory. -/
theorem Coherent.wordAt (hc : Coherent c m) (h : c.Shaped) {a : Nat} (hit : c.isHit a = true) :
    c.wordAt a = memRead m a := by
  obtain ⟨hv, ht⟩ := (c.isHit_iff a).1 hit
  rw [h.lineAt_eq a] at hv ht
  have := hc _ (h.lineIndex_lt a) hv _ (h.offset_lt a)
  rw [ht, c.mappedAddress_self] at this
  rw [Cache.wordAt, h.lineAt_eq a, List.getD_eq_getElem?_getD, this]
  rfl

/-- R83: a read through a coherent cache returns the word of Memory, hit or miss. -/
theorem Coherent.read (hc : Coherent c m) (h : c.Shaped) (a : Nat) : (c.read m a).1 = memRead m a := by
  cases hit : c.isHit a
  · exact h.read_of_miss m hit
  · rw [c.read_of_hit m hit]; exact hc.wordAt h hit

/-- R83: an access keeps a coherent cache coherent. -/
theorem Coherent.access (hc : Coherent c m) (a : Nat) : Coherent (c.access m a) m := by
  rcases c.access_cases m a with ⟨-, e⟩ | ⟨-, e⟩
  · rw [e]; exact hc
  · intro i hi hv j hj
    have hi' : i < c.lines.length := by simpa using hi
    have hj' : j < c.blockSize := by simpa using hj
    have hmap : ∀ t, (c.access m a).mappedAddress i t j = c.mappedAddress i t j := by
      intro t; simp [Cache.mappedAddress]
    rw [hmap]
    by_cases hia : i = c.lineIndex a
    · subst hia
      have hl : (c.access m a).lines[c.lineIndex a] =
          { valid := true, tag := c.tagOf a, dirty := (c.lineAt a).dirty, block := c.fetchBlock m a } := by
        simp [e]
      rw [hl, c.mappedAddress_base]
      exact c.fetchBlock_get m a hj'
    · have hl : (c.access m a).lines[i] = c.lines[i] := by
        have := c.access_other m a hia
        rw [List.getElem?_eq_getElem hi, List.getElem?_eq_getElem hi'] at this
        exact Option.some.inj this
      rw [hl] at hv ⊢
      exact hc i hi' hv j hj'

theorem Cache.Shaped.setWordAt_lineAt (h : c.Shaped) (a : Nat) (v : Word) :
    (c.setWordAt a v).lineAt a = { c.lineAt a with block := (c.lineAt a).block.set (c.offset a) v } := by
  have hi := h.lineIndex_lt a
  rw [(h.setWordAt a v).lineAt_eq a]
  simp only [Cache.setWordAt_lineIndex]
  simp [Cache.setWordAt]

/-- R69, R72: the word just set is the word found. -/
theorem Cache.Shaped.setWordAt_wordAt (h : c.Shaped) (a : Nat) (v : Word) : (c.setWordAt a v).wordAt a = v := by
  have hb := h.blocks _ (h.lineAt_mem a)
  have ho := h.offset_lt a
  rw [Cache.wordAt, h.setWordAt_lineAt, Cache.setWordAt_offset, List.getD_eq_getElem?_getD]
  simp [hb, ho]

theorem Cache.Shaped.setWordAt_isHit (h : c.Shaped) {a : Nat} (v : Word) (hit : c.isHit a = true) :
    (c.setWordAt a v).isHit a = true := by
  rw [Cache.isHit_iff, h.setWordAt_lineAt, Cache.setWordAt_tagOf]
  exact (c.isHit_iff a).1 hit

/-- R69, R83: setting one word in the line that holds its block and in Memory keeps a coherent cache coherent. -/
theorem Coherent.setWordAt (hc : Coherent c m) (h : c.Shaped) (hm : m.wf) {a : Nat} (ha : a < memWords)
    (hit : c.isHit a = true) (v : Word) : Coherent (c.setWordAt a v) (memWrite m a v) := by
  intro i hi hv j hj
  have hi' : i < c.lines.length := by simpa using hi
  have hj' : j < c.blockSize := by simpa using hj
  have hmap : ∀ t, (c.setWordAt a v).mappedAddress i t j = c.mappedAddress i t j := by
    intro t; simp [Cache.mappedAddress]
  rw [hmap]
  by_cases hia : i = c.lineIndex a
  · subst hia
    have hl : (c.setWordAt a v).lines[c.lineIndex a] =
        { c.lineAt a with block := (c.lineAt a).block.set (c.offset a) v } := by
      simp [Cache.setWordAt]
    obtain ⟨hva, hta⟩ := (c.isHit_iff a).1 hit
    have hb := h.blocks _ (h.lineAt_mem a)
    rw [hl]
    simp only [hta, c.mappedAddress_base]
    by_cases hjo : j = c.offset a
    · subst hjo
      rw [← c.mappedAddress_base, c.mappedAddress_self, memRead_memWrite_self hm ha]
      simp [hb, hj']
    · rw [List.getElem?_set_ne (Ne.symm hjo), memRead_memWrite_of_ne hm]
      · have := hc _ (h.lineIndex_lt a) (by rw [← h.lineAt_eq a]; exact hva) j hj'
        rwa [← h.lineAt_eq a, hta, c.mappedAddress_base] at this
      · intro heq
        exact hjo (c.mappedAddress_inj (h.lineIndex_lt a) hj' (by rw [c.mappedAddress_base]; exact heq)).2.2
  · have hl : (c.setWordAt a v).lines[i] = c.lines[i] := by
      simp [Cache.setWordAt, Ne.symm hia]
    rw [hl] at hv ⊢
    rw [memRead_memWrite_of_ne hm]
    · exact hc i hi' hv j hj'
    · intro heq
      exact hia (c.mappedAddress_inj hi' hj' heq).1

/-- R69, R83: a write through a coherent cache keeps it coherent. -/
theorem Coherent.write (hc : Coherent c m) (h : c.Shaped) (hm : m.wf) {a : Nat} (ha : a < memWords) (v : Word) :
    Coherent (c.write m a v).1 (c.write m a v).2 :=
  (hc.access a).setWordAt (h.access m a) hm ha (h.access_isHit m a) v

theorem Coherent.flushAll (hc : Coherent c m) : Coherent c.flushAll m := hc

/-- R35: an empty cache is coherent with any Memory. -/
theorem Coherent.empty (p : CacheParams) (m : Memory) : Coherent (Cache.empty p) m := by
  intro i hi hv
  have : (Cache.empty p).lines[i] = CacheLine.invalid p.blockSize := by simp [Cache.empty]
  rw [this] at hv
  cases hv

/-- R68: after a write the same address reads back the value, with no look at Memory. -/
theorem Cache.Shaped.read_write (h : c.Shaped) (m m' : Memory) (a : Nat) (v : Word) :
    ((c.write m a v).1.read m' a).1 = v := by
  have hs := h.access m a
  unfold Cache.write
  rw [Cache.read_of_hit _ _ (hs.setWordAt_isHit v (h.access_isHit m a)), hs.setWordAt_wordAt]

end Kept

end Sys2Proof.Machine
end

