-- ==== Sys2Proof/Laws/Decode.lean ====
section
/-! SUPPORT. The fields of an instruction word as numbers, and of a word laid out as a format lays it out (R111, R112). -/

namespace Sys2Proof

/-- R111: a format A word as a number. -/
theorem formatA_toNat (op : BitVec 4) (x : Field12) : (op ++ x : Word).toNat = op.toNat * 4096 + x.toNat := by
  rw [BitVec.toNat_append, ← Nat.shiftLeft_add_eq_or_of_lt x.isLt, Nat.shiftLeft_eq]

/-- R112: a format S word as a number. -/
theorem formatS_toNat (u : BitVec 8) (y : Field8) : (u ++ y : Word).toNat = u.toNat * 256 + y.toNat := by
  rw [BitVec.toNat_append, ← Nat.shiftLeft_add_eq_or_of_lt y.isLt, Nat.shiftLeft_eq]

theorem opField_toNat (w : Word) : (opField w).toNat = w.toNat / 4096 := by
  have := w.isLt
  rw [opField, BitVec.extractLsb'_toNat, Nat.shiftRight_eq_div_pow]
  omega

theorem xField_toNat (w : Word) : (xField w).toNat = w.toNat % 4096 := by
  rw [xField, BitVec.extractLsb'_toNat, Nat.shiftRight_eq_div_pow]
  omega

theorem upperByte_toNat (w : Word) : (upperByte w).toNat = w.toNat / 256 := by
  have := w.isLt
  rw [upperByte, BitVec.extractLsb'_toNat, Nat.shiftRight_eq_div_pow]
  omega

theorem yField_toNat (w : Word) : (yField w).toNat = w.toNat % 256 := by
  rw [yField, BitVec.extractLsb'_toNat, Nat.shiftRight_eq_div_pow]
  omega

@[simp] theorem opField_append (op : BitVec 4) (x : Field12) : opField (op ++ x) = op := by
  apply BitVec.eq_of_toNat_eq
  rw [opField_toNat, formatA_toNat]
  omega

@[simp] theorem xField_append (op : BitVec 4) (x : Field12) : xField (op ++ x) = x := by
  apply BitVec.eq_of_toNat_eq
  rw [xField_toNat, formatA_toNat]
  omega

@[simp] theorem upperByte_append (u : BitVec 8) (y : Field8) : upperByte (u ++ y) = u := by
  apply BitVec.eq_of_toNat_eq
  rw [upperByte_toNat, formatS_toNat]
  omega

@[simp] theorem yField_append (u : BitVec 8) (y : Field8) : yField (u ++ y) = y := by
  apply BitVec.eq_of_toNat_eq
  rw [yField_toNat, formatS_toNat]
  omega

/-- R115: a word whose opcode bits are primary decodes by `PRIMARY`. -/
theorem decode_of_primary {w : Word} {i : Instr} (h : primary (opField w) (xField w) = some i) : decode w = .ok i := by
  rw [decode, h]

/-- R115: a word whose opcode bits are `0b1111` decodes by the extended group. -/
theorem decode_of_extended {w : Word} (h : opField w = 0xF#4) : decode w = decodeExtended w := by
  rw [decode, h]; rfl

/-- R116: a word of a primary opcode is a legal instruction and the encoder gives the word back. -/
theorem primary_encode {op : BitVec 4} {x : Field12} {i : Instr} (h : primary op x = some i) : encode i = op ++ x := by
  obtain ⟨op, hop⟩ := op
  unfold primary at h
  interval_cases op <;> first | (cases h; done) | (injection h with h; subst h; rfl)

/-- R115, R116: `PRIMARY` is defined exactly on the opcodes 0..14. -/
theorem primary_isSome (op : BitVec 4) (x : Field12) : (primary op x).isSome = true ↔ op ≠ 0xF#4 := by
  obtain ⟨op, hop⟩ := op
  interval_cases op <;> simp [primary]

/-- A word is its opcode bits over its operand bits. -/
theorem opField_append_xField (w : Word) : (opField w ++ xField w : Word) = w := by
  apply BitVec.eq_of_toNat_eq
  rw [formatA_toNat, opField_toNat, xField_toNat]
  omega

/-- A word is its upper byte over its lower byte. -/
theorem upperByte_append_yField (w : Word) : (upperByte w ++ yField w : Word) = w := by
  apply BitVec.eq_of_toNat_eq
  rw [formatS_toNat, upperByte_toNat, yField_toNat]
  omega

end Sys2Proof
end

