-- ==== Sys2Proof/Laws/State.lean ====
section
/-! SUPPORT. One lemma per field per update of the state, true by rfl: no later proof unfolds a record update. -/

namespace Sys2Proof.Machine

variable (s : State)

@[simp] theorem State.setPc_pc (v : Word) : (s.setPc v).pc = v := rfl
@[simp] theorem State.setPc_ac (v : Word) : (s.setPc v).ac = s.ac := rfl
@[simp] theorem State.setPc_sp (v : Word) : (s.setPc v).sp = s.sp := rfl
@[simp] theorem State.setPc_ir (v : Word) : (s.setPc v).ir = s.ir := rfl
@[simp] theorem State.setPc_tir (v : Word) : (s.setPc v).tir = s.tir := rfl
@[simp] theorem State.setPc_mar (v : Word) : (s.setPc v).mar = s.mar := rfl
@[simp] theorem State.setPc_mbr (v : Word) : (s.setPc v).mbr = s.mbr := rfl
@[simp] theorem State.setPc_regA (v : Word) : (s.setPc v).regA = s.regA := rfl
@[simp] theorem State.setPc_regB (v : Word) : (s.setPc v).regB = s.regB := rfl
@[simp] theorem State.setPc_regC (v : Word) : (s.setPc v).regC = s.regC := rfl
@[simp] theorem State.setPc_regD (v : Word) : (s.setPc v).regD = s.regD := rfl
@[simp] theorem State.setPc_regE (v : Word) : (s.setPc v).regE = s.regE := rfl
@[simp] theorem State.setPc_regF (v : Word) : (s.setPc v).regF = s.regF := rfl
@[simp] theorem State.setPc_halted (v : Word) : (s.setPc v).halted = s.halted := rfl
@[simp] theorem State.setPc_microLog (v : Word) : (s.setPc v).microLog = s.microLog := rfl
@[simp] theorem State.setPc_memory (v : Word) : (s.setPc v).memory = s.memory := rfl
@[simp] theorem State.setPc_ic (v : Word) : (s.setPc v).ic = s.ic := rfl
@[simp] theorem State.setPc_dc (v : Word) : (s.setPc v).dc = s.dc := rfl

@[simp] theorem State.setAc_pc (v : Word) : (s.setAc v).pc = s.pc := rfl
@[simp] theorem State.setAc_ac (v : Word) : (s.setAc v).ac = v := rfl
@[simp] theorem State.setAc_sp (v : Word) : (s.setAc v).sp = s.sp := rfl
@[simp] theorem State.setAc_ir (v : Word) : (s.setAc v).ir = s.ir := rfl
@[simp] theorem State.setAc_tir (v : Word) : (s.setAc v).tir = s.tir := rfl
@[simp] theorem State.setAc_mar (v : Word) : (s.setAc v).mar = s.mar := rfl
@[simp] theorem State.setAc_mbr (v : Word) : (s.setAc v).mbr = s.mbr := rfl
@[simp] theorem State.setAc_regA (v : Word) : (s.setAc v).regA = s.regA := rfl
@[simp] theorem State.setAc_regB (v : Word) : (s.setAc v).regB = s.regB := rfl
@[simp] theorem State.setAc_regC (v : Word) : (s.setAc v).regC = s.regC := rfl
@[simp] theorem State.setAc_regD (v : Word) : (s.setAc v).regD = s.regD := rfl
@[simp] theorem State.setAc_regE (v : Word) : (s.setAc v).regE = s.regE := rfl
@[simp] theorem State.setAc_regF (v : Word) : (s.setAc v).regF = s.regF := rfl
@[simp] theorem State.setAc_halted (v : Word) : (s.setAc v).halted = s.halted := rfl
@[simp] theorem State.setAc_microLog (v : Word) : (s.setAc v).microLog = s.microLog := rfl
@[simp] theorem State.setAc_memory (v : Word) : (s.setAc v).memory = s.memory := rfl
@[simp] theorem State.setAc_ic (v : Word) : (s.setAc v).ic = s.ic := rfl
@[simp] theorem State.setAc_dc (v : Word) : (s.setAc v).dc = s.dc := rfl

@[simp] theorem State.setSp_pc (v : Word) : (s.setSp v).pc = s.pc := rfl
@[simp] theorem State.setSp_ac (v : Word) : (s.setSp v).ac = s.ac := rfl
@[simp] theorem State.setSp_sp (v : Word) : (s.setSp v).sp = v := rfl
@[simp] theorem State.setSp_ir (v : Word) : (s.setSp v).ir = s.ir := rfl
@[simp] theorem State.setSp_tir (v : Word) : (s.setSp v).tir = s.tir := rfl
@[simp] theorem State.setSp_mar (v : Word) : (s.setSp v).mar = s.mar := rfl
@[simp] theorem State.setSp_mbr (v : Word) : (s.setSp v).mbr = s.mbr := rfl
@[simp] theorem State.setSp_regA (v : Word) : (s.setSp v).regA = s.regA := rfl
@[simp] theorem State.setSp_regB (v : Word) : (s.setSp v).regB = s.regB := rfl
@[simp] theorem State.setSp_regC (v : Word) : (s.setSp v).regC = s.regC := rfl
@[simp] theorem State.setSp_regD (v : Word) : (s.setSp v).regD = s.regD := rfl
@[simp] theorem State.setSp_regE (v : Word) : (s.setSp v).regE = s.regE := rfl
@[simp] theorem State.setSp_regF (v : Word) : (s.setSp v).regF = s.regF := rfl
@[simp] theorem State.setSp_halted (v : Word) : (s.setSp v).halted = s.halted := rfl
@[simp] theorem State.setSp_microLog (v : Word) : (s.setSp v).microLog = s.microLog := rfl
@[simp] theorem State.setSp_memory (v : Word) : (s.setSp v).memory = s.memory := rfl
@[simp] theorem State.setSp_ic (v : Word) : (s.setSp v).ic = s.ic := rfl
@[simp] theorem State.setSp_dc (v : Word) : (s.setSp v).dc = s.dc := rfl

@[simp] theorem State.setIr_pc (v : Word) : (s.setIr v).pc = s.pc := rfl
@[simp] theorem State.setIr_ac (v : Word) : (s.setIr v).ac = s.ac := rfl
@[simp] theorem State.setIr_sp (v : Word) : (s.setIr v).sp = s.sp := rfl
@[simp] theorem State.setIr_ir (v : Word) : (s.setIr v).ir = v := rfl
@[simp] theorem State.setIr_tir (v : Word) : (s.setIr v).tir = s.tir := rfl
@[simp] theorem State.setIr_mar (v : Word) : (s.setIr v).mar = s.mar := rfl
@[simp] theorem State.setIr_mbr (v : Word) : (s.setIr v).mbr = s.mbr := rfl
@[simp] theorem State.setIr_regA (v : Word) : (s.setIr v).regA = s.regA := rfl
@[simp] theorem State.setIr_regB (v : Word) : (s.setIr v).regB = s.regB := rfl
@[simp] theorem State.setIr_regC (v : Word) : (s.setIr v).regC = s.regC := rfl
@[simp] theorem State.setIr_regD (v : Word) : (s.setIr v).regD = s.regD := rfl
@[simp] theorem State.setIr_regE (v : Word) : (s.setIr v).regE = s.regE := rfl
@[simp] theorem State.setIr_regF (v : Word) : (s.setIr v).regF = s.regF := rfl
@[simp] theorem State.setIr_halted (v : Word) : (s.setIr v).halted = s.halted := rfl
@[simp] theorem State.setIr_microLog (v : Word) : (s.setIr v).microLog = s.microLog := rfl
@[simp] theorem State.setIr_memory (v : Word) : (s.setIr v).memory = s.memory := rfl
@[simp] theorem State.setIr_ic (v : Word) : (s.setIr v).ic = s.ic := rfl
@[simp] theorem State.setIr_dc (v : Word) : (s.setIr v).dc = s.dc := rfl

@[simp] theorem State.setMar_pc (v : Word) : (s.setMar v).pc = s.pc := rfl
@[simp] theorem State.setMar_ac (v : Word) : (s.setMar v).ac = s.ac := rfl
@[simp] theorem State.setMar_sp (v : Word) : (s.setMar v).sp = s.sp := rfl
@[simp] theorem State.setMar_ir (v : Word) : (s.setMar v).ir = s.ir := rfl
@[simp] theorem State.setMar_tir (v : Word) : (s.setMar v).tir = s.tir := rfl
@[simp] theorem State.setMar_mar (v : Word) : (s.setMar v).mar = v := rfl
@[simp] theorem State.setMar_mbr (v : Word) : (s.setMar v).mbr = s.mbr := rfl
@[simp] theorem State.setMar_regA (v : Word) : (s.setMar v).regA = s.regA := rfl
@[simp] theorem State.setMar_regB (v : Word) : (s.setMar v).regB = s.regB := rfl
@[simp] theorem State.setMar_regC (v : Word) : (s.setMar v).regC = s.regC := rfl
@[simp] theorem State.setMar_regD (v : Word) : (s.setMar v).regD = s.regD := rfl
@[simp] theorem State.setMar_regE (v : Word) : (s.setMar v).regE = s.regE := rfl
@[simp] theorem State.setMar_regF (v : Word) : (s.setMar v).regF = s.regF := rfl
@[simp] theorem State.setMar_halted (v : Word) : (s.setMar v).halted = s.halted := rfl
@[simp] theorem State.setMar_microLog (v : Word) : (s.setMar v).microLog = s.microLog := rfl
@[simp] theorem State.setMar_memory (v : Word) : (s.setMar v).memory = s.memory := rfl
@[simp] theorem State.setMar_ic (v : Word) : (s.setMar v).ic = s.ic := rfl
@[simp] theorem State.setMar_dc (v : Word) : (s.setMar v).dc = s.dc := rfl

@[simp] theorem State.setMbr_pc (v : Word) : (s.setMbr v).pc = s.pc := rfl
@[simp] theorem State.setMbr_ac (v : Word) : (s.setMbr v).ac = s.ac := rfl
@[simp] theorem State.setMbr_sp (v : Word) : (s.setMbr v).sp = s.sp := rfl
@[simp] theorem State.setMbr_ir (v : Word) : (s.setMbr v).ir = s.ir := rfl
@[simp] theorem State.setMbr_tir (v : Word) : (s.setMbr v).tir = s.tir := rfl
@[simp] theorem State.setMbr_mar (v : Word) : (s.setMbr v).mar = s.mar := rfl
@[simp] theorem State.setMbr_mbr (v : Word) : (s.setMbr v).mbr = v := rfl
@[simp] theorem State.setMbr_regA (v : Word) : (s.setMbr v).regA = s.regA := rfl
@[simp] theorem State.setMbr_regB (v : Word) : (s.setMbr v).regB = s.regB := rfl
@[simp] theorem State.setMbr_regC (v : Word) : (s.setMbr v).regC = s.regC := rfl
@[simp] theorem State.setMbr_regD (v : Word) : (s.setMbr v).regD = s.regD := rfl
@[simp] theorem State.setMbr_regE (v : Word) : (s.setMbr v).regE = s.regE := rfl
@[simp] theorem State.setMbr_regF (v : Word) : (s.setMbr v).regF = s.regF := rfl
@[simp] theorem State.setMbr_halted (v : Word) : (s.setMbr v).halted = s.halted := rfl
@[simp] theorem State.setMbr_microLog (v : Word) : (s.setMbr v).microLog = s.microLog := rfl
@[simp] theorem State.setMbr_memory (v : Word) : (s.setMbr v).memory = s.memory := rfl
@[simp] theorem State.setMbr_ic (v : Word) : (s.setMbr v).ic = s.ic := rfl
@[simp] theorem State.setMbr_dc (v : Word) : (s.setMbr v).dc = s.dc := rfl

@[simp] theorem State.setHalted_pc (v : Bool) : (s.setHalted v).pc = s.pc := rfl
@[simp] theorem State.setHalted_ac (v : Bool) : (s.setHalted v).ac = s.ac := rfl
@[simp] theorem State.setHalted_sp (v : Bool) : (s.setHalted v).sp = s.sp := rfl
@[simp] theorem State.setHalted_ir (v : Bool) : (s.setHalted v).ir = s.ir := rfl
@[simp] theorem State.setHalted_tir (v : Bool) : (s.setHalted v).tir = s.tir := rfl
@[simp] theorem State.setHalted_mar (v : Bool) : (s.setHalted v).mar = s.mar := rfl
@[simp] theorem State.setHalted_mbr (v : Bool) : (s.setHalted v).mbr = s.mbr := rfl
@[simp] theorem State.setHalted_regA (v : Bool) : (s.setHalted v).regA = s.regA := rfl
@[simp] theorem State.setHalted_regB (v : Bool) : (s.setHalted v).regB = s.regB := rfl
@[simp] theorem State.setHalted_regC (v : Bool) : (s.setHalted v).regC = s.regC := rfl
@[simp] theorem State.setHalted_regD (v : Bool) : (s.setHalted v).regD = s.regD := rfl
@[simp] theorem State.setHalted_regE (v : Bool) : (s.setHalted v).regE = s.regE := rfl
@[simp] theorem State.setHalted_regF (v : Bool) : (s.setHalted v).regF = s.regF := rfl
@[simp] theorem State.setHalted_halted (v : Bool) : (s.setHalted v).halted = v := rfl
@[simp] theorem State.setHalted_microLog (v : Bool) : (s.setHalted v).microLog = s.microLog := rfl
@[simp] theorem State.setHalted_memory (v : Bool) : (s.setHalted v).memory = s.memory := rfl
@[simp] theorem State.setHalted_ic (v : Bool) : (s.setHalted v).ic = s.ic := rfl
@[simp] theorem State.setHalted_dc (v : Bool) : (s.setHalted v).dc = s.dc := rfl

@[simp] theorem State.setMicroLog_pc (v : List TraceEntry) : (s.setMicroLog v).pc = s.pc := rfl
@[simp] theorem State.setMicroLog_ac (v : List TraceEntry) : (s.setMicroLog v).ac = s.ac := rfl
@[simp] theorem State.setMicroLog_sp (v : List TraceEntry) : (s.setMicroLog v).sp = s.sp := rfl
@[simp] theorem State.setMicroLog_ir (v : List TraceEntry) : (s.setMicroLog v).ir = s.ir := rfl
@[simp] theorem State.setMicroLog_tir (v : List TraceEntry) : (s.setMicroLog v).tir = s.tir := rfl
@[simp] theorem State.setMicroLog_mar (v : List TraceEntry) : (s.setMicroLog v).mar = s.mar := rfl
@[simp] theorem State.setMicroLog_mbr (v : List TraceEntry) : (s.setMicroLog v).mbr = s.mbr := rfl
@[simp] theorem State.setMicroLog_regA (v : List TraceEntry) : (s.setMicroLog v).regA = s.regA := rfl
@[simp] theorem State.setMicroLog_regB (v : List TraceEntry) : (s.setMicroLog v).regB = s.regB := rfl
@[simp] theorem State.setMicroLog_regC (v : List TraceEntry) : (s.setMicroLog v).regC = s.regC := rfl
@[simp] theorem State.setMicroLog_regD (v : List TraceEntry) : (s.setMicroLog v).regD = s.regD := rfl
@[simp] theorem State.setMicroLog_regE (v : List TraceEntry) : (s.setMicroLog v).regE = s.regE := rfl
@[simp] theorem State.setMicroLog_regF (v : List TraceEntry) : (s.setMicroLog v).regF = s.regF := rfl
@[simp] theorem State.setMicroLog_halted (v : List TraceEntry) : (s.setMicroLog v).halted = s.halted := rfl
@[simp] theorem State.setMicroLog_microLog (v : List TraceEntry) : (s.setMicroLog v).microLog = v := rfl
@[simp] theorem State.setMicroLog_memory (v : List TraceEntry) : (s.setMicroLog v).memory = s.memory := rfl
@[simp] theorem State.setMicroLog_ic (v : List TraceEntry) : (s.setMicroLog v).ic = s.ic := rfl
@[simp] theorem State.setMicroLog_dc (v : List TraceEntry) : (s.setMicroLog v).dc = s.dc := rfl

@[simp] theorem State.setMemory_pc (v : Memory) : (s.setMemory v).pc = s.pc := rfl
@[simp] theorem State.setMemory_ac (v : Memory) : (s.setMemory v).ac = s.ac := rfl
@[simp] theorem State.setMemory_sp (v : Memory) : (s.setMemory v).sp = s.sp := rfl
@[simp] theorem State.setMemory_ir (v : Memory) : (s.setMemory v).ir = s.ir := rfl
@[simp] theorem State.setMemory_tir (v : Memory) : (s.setMemory v).tir = s.tir := rfl
@[simp] theorem State.setMemory_mar (v : Memory) : (s.setMemory v).mar = s.mar := rfl
@[simp] theorem State.setMemory_mbr (v : Memory) : (s.setMemory v).mbr = s.mbr := rfl
@[simp] theorem State.setMemory_regA (v : Memory) : (s.setMemory v).regA = s.regA := rfl
@[simp] theorem State.setMemory_regB (v : Memory) : (s.setMemory v).regB = s.regB := rfl
@[simp] theorem State.setMemory_regC (v : Memory) : (s.setMemory v).regC = s.regC := rfl
@[simp] theorem State.setMemory_regD (v : Memory) : (s.setMemory v).regD = s.regD := rfl
@[simp] theorem State.setMemory_regE (v : Memory) : (s.setMemory v).regE = s.regE := rfl
@[simp] theorem State.setMemory_regF (v : Memory) : (s.setMemory v).regF = s.regF := rfl
@[simp] theorem State.setMemory_halted (v : Memory) : (s.setMemory v).halted = s.halted := rfl
@[simp] theorem State.setMemory_microLog (v : Memory) : (s.setMemory v).microLog = s.microLog := rfl
@[simp] theorem State.setMemory_memory (v : Memory) : (s.setMemory v).memory = v := rfl
@[simp] theorem State.setMemory_ic (v : Memory) : (s.setMemory v).ic = s.ic := rfl
@[simp] theorem State.setMemory_dc (v : Memory) : (s.setMemory v).dc = s.dc := rfl

@[simp] theorem State.setIc_pc (v : Cache) : (s.setIc v).pc = s.pc := rfl
@[simp] theorem State.setIc_ac (v : Cache) : (s.setIc v).ac = s.ac := rfl
@[simp] theorem State.setIc_sp (v : Cache) : (s.setIc v).sp = s.sp := rfl
@[simp] theorem State.setIc_ir (v : Cache) : (s.setIc v).ir = s.ir := rfl
@[simp] theorem State.setIc_tir (v : Cache) : (s.setIc v).tir = s.tir := rfl
@[simp] theorem State.setIc_mar (v : Cache) : (s.setIc v).mar = s.mar := rfl
@[simp] theorem State.setIc_mbr (v : Cache) : (s.setIc v).mbr = s.mbr := rfl
@[simp] theorem State.setIc_regA (v : Cache) : (s.setIc v).regA = s.regA := rfl
@[simp] theorem State.setIc_regB (v : Cache) : (s.setIc v).regB = s.regB := rfl
@[simp] theorem State.setIc_regC (v : Cache) : (s.setIc v).regC = s.regC := rfl
@[simp] theorem State.setIc_regD (v : Cache) : (s.setIc v).regD = s.regD := rfl
@[simp] theorem State.setIc_regE (v : Cache) : (s.setIc v).regE = s.regE := rfl
@[simp] theorem State.setIc_regF (v : Cache) : (s.setIc v).regF = s.regF := rfl
@[simp] theorem State.setIc_halted (v : Cache) : (s.setIc v).halted = s.halted := rfl
@[simp] theorem State.setIc_microLog (v : Cache) : (s.setIc v).microLog = s.microLog := rfl
@[simp] theorem State.setIc_memory (v : Cache) : (s.setIc v).memory = s.memory := rfl
@[simp] theorem State.setIc_ic (v : Cache) : (s.setIc v).ic = v := rfl
@[simp] theorem State.setIc_dc (v : Cache) : (s.setIc v).dc = s.dc := rfl

@[simp] theorem State.setDc_pc (v : Cache) : (s.setDc v).pc = s.pc := rfl
@[simp] theorem State.setDc_ac (v : Cache) : (s.setDc v).ac = s.ac := rfl
@[simp] theorem State.setDc_sp (v : Cache) : (s.setDc v).sp = s.sp := rfl
@[simp] theorem State.setDc_ir (v : Cache) : (s.setDc v).ir = s.ir := rfl
@[simp] theorem State.setDc_tir (v : Cache) : (s.setDc v).tir = s.tir := rfl
@[simp] theorem State.setDc_mar (v : Cache) : (s.setDc v).mar = s.mar := rfl
@[simp] theorem State.setDc_mbr (v : Cache) : (s.setDc v).mbr = s.mbr := rfl
@[simp] theorem State.setDc_regA (v : Cache) : (s.setDc v).regA = s.regA := rfl
@[simp] theorem State.setDc_regB (v : Cache) : (s.setDc v).regB = s.regB := rfl
@[simp] theorem State.setDc_regC (v : Cache) : (s.setDc v).regC = s.regC := rfl
@[simp] theorem State.setDc_regD (v : Cache) : (s.setDc v).regD = s.regD := rfl
@[simp] theorem State.setDc_regE (v : Cache) : (s.setDc v).regE = s.regE := rfl
@[simp] theorem State.setDc_regF (v : Cache) : (s.setDc v).regF = s.regF := rfl
@[simp] theorem State.setDc_halted (v : Cache) : (s.setDc v).halted = s.halted := rfl
@[simp] theorem State.setDc_microLog (v : Cache) : (s.setDc v).microLog = s.microLog := rfl
@[simp] theorem State.setDc_memory (v : Cache) : (s.setDc v).memory = s.memory := rfl
@[simp] theorem State.setDc_ic (v : Cache) : (s.setDc v).ic = s.ic := rfl
@[simp] theorem State.setDc_dc (v : Cache) : (s.setDc v).dc = v := rfl

end Sys2Proof.Machine
end

