-- ==== Sys2Proof/Laws/Paths.lean ====
section
/-! SUPPORT. What the engine's access paths, the stack operations, fetch and the halting transitions do to a state: one lemma
per operation and part of the state, and that each keeps `State.DataInv`. -/

namespace Sys2Proof.Machine

variable (s : State)

theorem inRange_iff (a : Word) : inRange a = true ↔ a.toNat < memWords := by
  simp [inRange]

/-! ## Reading data (R74) -/

theorem dRead_of_inRange {a : Word} (h : inRange a = true) :
    dRead s a = ((s.dc.read s.memory a.toNat).1, s.setDc (s.dc.access s.memory a.toNat)) := by
  rw [dRead, if_pos h]; rfl

theorem dRead_of_out {a : Word} (h : inRange a = false) : dRead s a = (0, s) := by
  rw [dRead, if_neg (by simp [h])]

/-- R74: a data read changes the data cache only. -/
theorem dRead_state (a : Word) :
    (dRead s a).2 = s.setDc (if inRange a then s.dc.access s.memory a.toNat else s.dc) := by
  cases h : inRange a
  · rw [dRead_of_out s h]; rfl
  · rw [dRead_of_inRange s h]; rfl

@[simp] theorem dRead_pc (a : Word) : (dRead s a).2.pc = s.pc := by simp [dRead_state]
@[simp] theorem dRead_ac (a : Word) : (dRead s a).2.ac = s.ac := by simp [dRead_state]
@[simp] theorem dRead_sp (a : Word) : (dRead s a).2.sp = s.sp := by simp [dRead_state]
@[simp] theorem dRead_ir (a : Word) : (dRead s a).2.ir = s.ir := by simp [dRead_state]
@[simp] theorem dRead_mar (a : Word) : (dRead s a).2.mar = s.mar := by simp [dRead_state]
@[simp] theorem dRead_mbr (a : Word) : (dRead s a).2.mbr = s.mbr := by simp [dRead_state]
@[simp] theorem dRead_halted (a : Word) : (dRead s a).2.halted = s.halted := by simp [dRead_state]
@[simp] theorem dRead_microLog (a : Word) : (dRead s a).2.microLog = s.microLog := by simp [dRead_state]
@[simp] theorem dRead_memory (a : Word) : (dRead s a).2.memory = s.memory := by simp [dRead_state]
@[simp] theorem dRead_ic (a : Word) : (dRead s a).2.ic = s.ic := by simp [dRead_state]

/-- R74, R83: over a coherent data cache a data read returns the word of Memory, 0 outside 0..4095. -/
theorem dRead_value (hs : s.dc.Shaped) (hc : Coherent s.dc s.memory) (a : Word) :
    (dRead s a).1 = memRead s.memory a.toNat := by
  cases h : inRange a
  · rw [dRead_of_out s h, memRead_out]
    by_contra hlt
    have := (inRange_iff a).2 (by omega)
    simp [h] at this
  · rw [dRead_of_inRange s h]; exact hc.read hs _

/-- R74: what a data read returns depends on the data cache and Memory alone. -/
theorem dRead_value_congr {s t : State} (hd : s.dc = t.dc) (hm : s.memory = t.memory) (a : Word) :
    (dRead s a).1 = (dRead t a).1 := by
  unfold dRead
  rw [hd, hm]
  split <;> rfl

/-! ## Writing data (R75) -/

theorem dWrite_of_inRange {a : Word} (h : inRange a = true) (v : Word) :
    dWrite s a v =
      (s.setDc ((s.dc.access s.memory a.toNat).setWordAt a.toNat v)).setMemory (memWrite s.memory a.toNat v) := by
  rw [dWrite, if_pos h]; rfl

theorem dWrite_of_out {a : Word} (h : inRange a = false) (v : Word) : dWrite s a v = s := by
  rw [dWrite, if_neg (by simp [h])]

/-- R75: a data write changes the data cache and Memory only; Memory changes as `MemWrite` says, in range or not. -/
theorem dWrite_state (a v : Word) :
    dWrite s a v =
      (s.setDc (if inRange a then (s.dc.access s.memory a.toNat).setWordAt a.toNat v else s.dc)).setMemory
        (memWrite s.memory a.toNat v) := by
  cases h : inRange a
  · have : ¬ a.toNat < memWords := fun hlt => by simp [(inRange_iff a).2 hlt] at h
    rw [dWrite_of_out s h, memWrite, if_neg this]; rfl
  · rw [dWrite_of_inRange s h]; rfl

@[simp] theorem dWrite_pc (a v : Word) : (dWrite s a v).pc = s.pc := by simp [dWrite_state]
@[simp] theorem dWrite_ac (a v : Word) : (dWrite s a v).ac = s.ac := by simp [dWrite_state]
@[simp] theorem dWrite_sp (a v : Word) : (dWrite s a v).sp = s.sp := by simp [dWrite_state]
@[simp] theorem dWrite_ir (a v : Word) : (dWrite s a v).ir = s.ir := by simp [dWrite_state]
@[simp] theorem dWrite_mar (a v : Word) : (dWrite s a v).mar = s.mar := by simp [dWrite_state]
@[simp] theorem dWrite_mbr (a v : Word) : (dWrite s a v).mbr = s.mbr := by simp [dWrite_state]
@[simp] theorem dWrite_halted (a v : Word) : (dWrite s a v).halted = s.halted := by simp [dWrite_state]
@[simp] theorem dWrite_microLog (a v : Word) : (dWrite s a v).microLog = s.microLog := by simp [dWrite_state]
@[simp] theorem dWrite_ic (a v : Word) : (dWrite s a v).ic = s.ic := by simp [dWrite_state]
theorem dWrite_memory (a v : Word) : (dWrite s a v).memory = memWrite s.memory a.toNat v := by simp [dWrite_state]

/-- R75, R80: what a data write stored is what the next data read of that address returns, if the address is in range. -/
theorem dRead_dWrite (hs : s.dc.Shaped) {a : Word} (h : inRange a = true) (v : Word) : (dRead (dWrite s a v) a).1 = v := by
  rw [dRead_of_inRange _ h, dWrite_of_inRange s h]
  exact hs.read_write _ _ _ v

/-! ## The stack -/

theorem pushWord_state (v : Word) : pushWord s v = dWrite (s.setSp (pushAddress s)) (pushAddress s) v := rfl

theorem popWord_value : (popWord s).1 = (dRead s s.sp).1 := rfl

theorem popWord_state : (popWord s).2 = (dRead s s.sp).2.setSp (poppedSp s) := by
  simp [popWord, poppedSp]

/-! ## Fetch (R142) -/

/-- R142: every part of the state after fetch. -/
theorem fetch_state :
    fetch s =
      { s with
        pc := addWord s.pc 1
        ir := (s.ic.read s.memory s.pc.toNat).1
        mar := s.pc
        mbr := (s.ic.read s.memory s.pc.toNat).1
        microLog := [.cycle s.pc (s.ic.read s.memory s.pc.toNat).1]
        ic := s.ic.access s.memory s.pc.toNat } := rfl

@[simp] theorem fetch_pc : (fetch s).pc = addWord s.pc 1 := rfl
@[simp] theorem fetch_ac : (fetch s).ac = s.ac := rfl
@[simp] theorem fetch_sp : (fetch s).sp = s.sp := rfl
@[simp] theorem fetch_ir : (fetch s).ir = (s.ic.read s.memory s.pc.toNat).1 := rfl
@[simp] theorem fetch_mar : (fetch s).mar = s.pc := rfl
@[simp] theorem fetch_mbr : (fetch s).mbr = (s.ic.read s.memory s.pc.toNat).1 := rfl
@[simp] theorem fetch_halted : (fetch s).halted = s.halted := rfl
@[simp] theorem fetch_memory : (fetch s).memory = s.memory := rfl
@[simp] theorem fetch_ic : (fetch s).ic = s.ic.access s.memory s.pc.toNat := rfl
@[simp] theorem fetch_dc : (fetch s).dc = s.dc := rfl

/-! ## Every operation keeps `State.DataInv` -/

variable {s}

theorem State.DataInv.setPc (h : s.DataInv) (v : Word) : (s.setPc v).DataInv :=
  ⟨h.memoryCanonical, h.icShaped, h.dcShaped, h.dcCoherent, h.icCounted, h.dcCounted, h.unusedZero, h.mbrIsIr⟩

theorem State.DataInv.setAc (h : s.DataInv) (v : Word) : (s.setAc v).DataInv :=
  ⟨h.memoryCanonical, h.icShaped, h.dcShaped, h.dcCoherent, h.icCounted, h.dcCounted, h.unusedZero, h.mbrIsIr⟩

theorem State.DataInv.setSp (h : s.DataInv) (v : Word) : (s.setSp v).DataInv :=
  ⟨h.memoryCanonical, h.icShaped, h.dcShaped, h.dcCoherent, h.icCounted, h.dcCounted, h.unusedZero, h.mbrIsIr⟩

theorem State.DataInv.setHalted (h : s.DataInv) (v : Bool) : (s.setHalted v).DataInv :=
  ⟨h.memoryCanonical, h.icShaped, h.dcShaped, h.dcCoherent, h.icCounted, h.dcCounted, h.unusedZero, h.mbrIsIr⟩

theorem State.DataInv.setMicroLog (h : s.DataInv) (v : List TraceEntry) : (s.setMicroLog v).DataInv :=
  ⟨h.memoryCanonical, h.icShaped, h.dcShaped, h.dcCoherent, h.icCounted, h.dcCounted, h.unusedZero, h.mbrIsIr⟩

theorem State.DataInv.dRead (h : s.DataInv) (a : Word) : (dRead s a).2.DataInv := by
  cases hr : inRange a
  · rw [dRead_of_out s hr]; exact h
  · rw [dRead_of_inRange s hr]
    exact ⟨h.memoryCanonical, h.icShaped, h.dcShaped.access _ _, h.dcCoherent.access _, h.icCounted,
      h.dcCounted.access _ _, h.unusedZero, h.mbrIsIr⟩

theorem State.DataInv.dWrite (h : s.DataInv) (a v : Word) : (dWrite s a v).DataInv := by
  cases hr : inRange a
  · rw [dWrite_of_out s hr]; exact h
  · rw [dWrite_of_inRange s hr]
    exact ⟨memWrite_wf h.memoryCanonical _ _, h.icShaped, (h.dcShaped.access _ _).setWordAt _ _,
      h.dcCoherent.write h.dcShaped h.memoryCanonical ((inRange_iff a).1 hr) v, h.icCounted,
      (h.dcCounted.access _ _).setWordAt _ _, h.unusedZero, h.mbrIsIr⟩

theorem State.DataInv.pushWord (h : s.DataInv) (v : Word) : (pushWord s v).DataInv :=
  (h.setSp _).dWrite _ v

theorem State.DataInv.popWord (h : s.DataInv) : (popWord s).2.DataInv :=
  (h.dRead _).setSp _

theorem State.DataInv.fetch (h : s.DataInv) : (fetch s).DataInv :=
  ⟨h.memoryCanonical, h.icShaped.access _ _, h.dcShaped, h.dcCoherent, h.icCounted.access _ _, h.dcCounted,
    h.unusedZero, rfl⟩

theorem State.DataInv.flushBoth (h : s.DataInv) : (flushBoth s).DataInv :=
  ⟨h.memoryCanonical, h.icShaped.flushAll, h.dcShaped.flushAll, h.dcCoherent.flushAll, h.icCounted.flushAll,
    h.dcCounted.flushAll, h.unusedZero, h.mbrIsIr⟩

theorem copyWords_wf {m : Memory} (h : m.wf) (a : Nat) (ws : List Word) : (copyWords a ws m).wf := by
  induction ws generalizing a m with
  | nil => exact h
  | cons w ws ih => exact ih (memWrite_wf h a w) (a + 1)

/-- R302: what a copied program reads back as. -/
theorem memRead_copyWords {m : Memory} (h : m.wf) (a : Nat) (ws : List Word) (hfit : a + ws.length ≤ memWords) (b : Nat) :
    memRead (copyWords a ws m) b = if a ≤ b ∧ b < a + ws.length then ws.getD (b - a) 0 else memRead m b := by
  induction ws generalizing a m with
  | nil =>
    rw [if_neg (by simp)]; rfl
  | cons w ws ih =>
    have hlen : (w :: ws).length = ws.length + 1 := rfl
    rw [copyWords, ih (memWrite_wf h a w) (a + 1) (by omega)]
    by_cases hb : b = a
    · subst hb
      rw [if_neg (by omega), if_pos (by omega), memRead_memWrite_self h (by omega)]
      simp
    · rw [memRead_memWrite_of_ne h hb]
      by_cases hin : a + 1 ≤ b ∧ b < a + 1 + ws.length
      · obtain ⟨j, rfl⟩ : ∃ j, b = a + 1 + j := ⟨b - (a + 1), by omega⟩
        rw [if_pos hin, if_pos (by omega)]
        have h1 : a + 1 + j - (a + 1) = j := by omega
        have h2 : a + 1 + j - a = j + 1 := by omega
        rw [h1, h2, List.getD_cons_succ]
      · rw [if_neg hin, if_neg (by omega)]

theorem State.DataInv.resetWith {cfg : Config} (h : cfg.wellFormed = true) : (State.resetWith cfg).DataInv := by
  simp only [Config.wellFormed, Bool.and_eq_true] at h
  exact ⟨Memory.wf_nil, .empty h.1, .empty h.2, Coherent.empty _ _, .empty _, .empty _,
    ⟨rfl, rfl, rfl, rfl, rfl, rfl, rfl⟩, rfl⟩

/-- R5: the sizes of a machine whose caches have the shape of R31 are sizes of R5. -/
theorem State.config_wellFormed (hi : s.ic.Shaped) (hd : s.dc.Shaped) : s.config.wellFormed = true := by
  simp [State.config, Config.wellFormed, CacheParams.wellFormed, hi.someLine, hi.someWord, hd.someLine, hd.someWord]

/-- Assumption 18: the word planted is the word the next fetch finds. -/
theorem fetch_plantWord (hi : s.ic.Shaped) (hm : s.memory.wf) {a : Word} (ha : inRange a = true) (v : Word) :
    ((plantWord s a.toNat v).ic.read (plantWord s a.toNat v).memory a.toNat).1 = v := by
  cases hit : s.ic.isHit a.toNat
  · have hp : (plantWord s a.toNat v).ic = s.ic ∧ (plantWord s a.toNat v).memory = memWrite s.memory a.toNat v := by
      unfold plantWord
      rw [if_neg (by simp [hit])]
      dsimp only
      split <;> exact ⟨rfl, rfl⟩
    rw [hp.1, hp.2, hi.read_of_miss _ hit, memRead_memWrite_self hm ((inRange_iff a).1 ha)]
  · have hp : plantWord s a.toNat v = s.setIc (s.ic.setWordAt a.toNat v) := by
      unfold plantWord
      rw [if_pos hit]
    rw [hp]
    show ((s.ic.setWordAt a.toNat v).read s.memory a.toNat).1 = v
    rw [Cache.read_of_hit _ _ (hi.setWordAt_isHit v hit), hi.setWordAt_wordAt]

end Sys2Proof.Machine
end

