-- ==== Sys2Proof/Laws/PerInstr.lean ====
section
/-! SUPPORT. Facts about every instruction, one lemma per constructor: the encoded word has the fixed bits of the
instruction's row of spec/opcode_table.json (`RowFixedBits`). -/

namespace Sys2Proof.Laws

/-- A format A word under the mask of its four opcode bits (R111). -/
theorem formatA_and_mask (op : BitVec 4) (x : Field12) : (op ++ x : Word) &&& 0xF000 = op ++ 0#12 := by
  have h : (0xF000 : Word) = BitVec.allOnes 4 ++ 0#12 := by decide
  rw [h]
  ext i hi
  simp only [BitVec.getElem_and, BitVec.getElem_append]
  split
  · rw [BitVec.getElem_zero, Bool.and_false]
  · rw [BitVec.getElem_allOnes, Bool.and_true]

/-- A format S word under the mask of its upper byte (R112). -/
theorem formatS_and_mask (u : BitVec 8) (y : Field8) : (u ++ y : Word) &&& 0xFF00 = u ++ 0#8 := by
  have h : (0xFF00 : Word) = BitVec.allOnes 8 ++ 0#8 := by decide
  rw [h]
  ext i hi
  simp only [BitVec.getElem_and, BitVec.getElem_append]
  split
  · rw [BitVec.getElem_zero, Bool.and_false]
  · rw [BitVec.getElem_allOnes, Bool.and_true]

/-- R121: the encoded word matches its own row of the opcode table. -/
def RowFixedBits.Statement (i : Instr) : Prop := encode i &&& i.row.mask = i.row.fixedBits

namespace RowFixedBits

theorem lodd (x : Field12) : Statement (.lodd x) := (formatA_and_mask _ x).trans rfl
theorem stod (x : Field12) : Statement (.stod x) := (formatA_and_mask _ x).trans rfl
theorem addd (x : Field12) : Statement (.addd x) := (formatA_and_mask _ x).trans rfl
theorem subd (x : Field12) : Statement (.subd x) := (formatA_and_mask _ x).trans rfl
theorem jpos (x : Field12) : Statement (.jpos x) := (formatA_and_mask _ x).trans rfl
theorem jzer (x : Field12) : Statement (.jzer x) := (formatA_and_mask _ x).trans rfl
theorem jump (x : Field12) : Statement (.jump x) := (formatA_and_mask _ x).trans rfl
theorem loco (x : Field12) : Statement (.loco x) := (formatA_and_mask _ x).trans rfl
theorem lodl (x : Field12) : Statement (.lodl x) := (formatA_and_mask _ x).trans rfl
theorem stol (x : Field12) : Statement (.stol x) := (formatA_and_mask _ x).trans rfl
theorem addl (x : Field12) : Statement (.addl x) := (formatA_and_mask _ x).trans rfl
theorem subl (x : Field12) : Statement (.subl x) := (formatA_and_mask _ x).trans rfl
theorem jneg (x : Field12) : Statement (.jneg x) := (formatA_and_mask _ x).trans rfl
theorem jnze (x : Field12) : Statement (.jnze x) := (formatA_and_mask _ x).trans rfl
theorem call (x : Field12) : Statement (.call x) := (formatA_and_mask _ x).trans rfl
theorem insp (y : Field8) : Statement (.insp y) := (formatS_and_mask _ y).trans rfl
theorem desp (y : Field8) : Statement (.desp y) := (formatS_and_mask _ y).trans rfl
theorem pshi : Statement .pshi := rfl
theorem popi : Statement .popi := rfl
theorem push : Statement .push := rfl
theorem pop : Statement .pop := rfl
theorem retn : Statement .retn := rfl
theorem swap : Statement .swap := rfl
theorem halt : Statement .halt := rfl

end RowFixedBits

end Sys2Proof.Laws
end

