-- ==== Sys2Proof/Tests/Slice0.lean ====
section
/-! SUPPORT. The model's own tests. Expected results come from spec/95_test_vectors.md (each test names its vector) or from
the spec's tables; a word is written out bit by bit from spec/30_encoding.md. Then a witness for the hypotheses of each
statement of Certificates/Slice0/Obligations.lean. -/

namespace Sys2Proof.Tests

open Sys2Proof Sys2Proof.Machine

/-! ## WellFormed smoke: an ill-formed term for each check -/

theorem test_wf_default : Config.default.wellFormed = true := by decide
theorem test_wf_no_line : CacheParams.wellFormed { lineCount := 0, blockSize := 4 } = false := by decide
theorem test_wf_no_word : CacheParams.wellFormed { lineCount := 8, blockSize := 0 } = false := by decide
theorem test_wf_ic : Config.wellFormed { Config.default with ic := { lineCount := 0, blockSize := 4 } } = false := by decide
theorem test_wf_dc : Config.wellFormed { Config.default with dc := { lineCount := 8, blockSize := 0 } } = false := by decide
theorem test_wf_long_program : programFits (List.replicate 4097 0) = false := by
  rw [programFits, List.length_replicate]; rfl
theorem test_wf_full_program : programFits (List.replicate 4096 0) = true := by
  rw [programFits, List.length_replicate]; rfl
theorem test_wf_label_empty : labelWellFormed [] = false := by decide
theorem test_wf_label_digit : labelWellFormed ['1', 'a'] = false := by decide
theorem test_wf_label_space : labelWellFormed ['a', ' '] = false := by decide
theorem test_wf_label : labelWellFormed ['_', 'a', '1'] = true := by decide
theorem test_wf_control_char : sourceCharsWellFormed [Char.ofNat 7] = false := by decide
theorem test_wf_not_ascii : sourceCharsWellFormed [Char.ofNat 233] = false := by decide
theorem test_wf_source_chars : sourceCharsWellFormed ['a', '~', ' ', '\t', '\r', '\n'] = true := by decide
theorem test_wf_source_comment : sourceAdmitted AsmParams.default "HALT ;".toList = false := by decide
theorem test_wf_source_label : sourceAdmitted AsmParams.default "1a: HALT".toList = false := by decide
theorem test_wf_source_twice : sourceAdmitted AsmParams.default "a: 1\na: 2".toList = false := by decide
theorem test_wf_source_tokens : sourceAdmitted AsmParams.default "HALT 5 6".toList = false := by decide
theorem test_wf_source : sourceAdmitted AsmParams.default "a: LOCO 5\nADDD a".toList = true := by decide

/-! ## Decoding: the words of spec/30_encoding.md R116, R117, R118, bit by bit -/

theorem test_decode_lodd : decode 0b0000101010111100#16 = .ok (.lodd 2748) := by decide
theorem test_decode_stod : decode 0b0001000000000000#16 = .ok (.stod 0) := by decide
theorem test_decode_addd : decode 0b0010000000000001#16 = .ok (.addd 1) := by decide
theorem test_decode_subd : decode 0b0011111111111111#16 = .ok (.subd 4095) := by decide
theorem test_decode_jpos : decode 0b0100100000000000#16 = .ok (.jpos 2048) := by decide
theorem test_decode_jzer : decode 0b0101011111111111#16 = .ok (.jzer 2047) := by decide
theorem test_decode_jump : decode 0b0110000000001001#16 = .ok (.jump 9) := by decide
theorem test_decode_loco : decode 0b0111000000000101#16 = .ok (.loco 5) := by decide
theorem test_decode_lodl : decode 0b1000000000000001#16 = .ok (.lodl 1) := by decide
theorem test_decode_stol : decode 0b1001000000000010#16 = .ok (.stol 2) := by decide
theorem test_decode_addl : decode 0b1010000100100011#16 = .ok (.addl 291) := by decide
theorem test_decode_subl : decode 0b1011000000000011#16 = .ok (.subl 3) := by decide
theorem test_decode_jneg : decode 0b1100000000000111#16 = .ok (.jneg 7) := by decide
theorem test_decode_jnze : decode 0b1101000000010000#16 = .ok (.jnze 16) := by decide
theorem test_decode_call : decode 0b1110111111111111#16 = .ok (.call 4095) := by decide
theorem test_decode_insp : decode 0b1111110011111110#16 = .ok (.insp 254) := by decide
theorem test_decode_desp : decode 0b1111111010000001#16 = .ok (.desp 129) := by decide
theorem test_decode_pshi : decode 0b1111000000000000#16 = .ok .pshi := by decide
theorem test_decode_popi : decode 0b1111001000000000#16 = .ok .popi := by decide
theorem test_decode_push : decode 0b1111010000000000#16 = .ok .push := by decide
theorem test_decode_pop : decode 0b1111011000000000#16 = .ok .pop := by decide
theorem test_decode_retn : decode 0b1111100000000000#16 = .ok .retn := by decide
theorem test_decode_swap : decode 0b1111101000000000#16 = .ok .swap := by decide
theorem test_decode_halt : decode 0b1111111111111111#16 = .ok .halt := by decide
theorem test_decode_unknown_pshi_low : decode 0b1111000000000001#16 = .error (.unknown 0xF001) := by decide
theorem test_decode_unknown_popi_high : decode 0b1111001111111111#16 = .error (.unknown 0xF3FF) := by decide
theorem test_decode_unknown_swap_high : decode 0b1111101111111111#16 = .error (.unknown 0xFBFF) := by decide
theorem test_decode_unknown_fd : decode 0b1111110100000000#16 = .error (.unknown 0xFD00) := by decide
theorem test_decode_unknown_ff : decode 0b1111111100000000#16 = .error (.unknown 0xFF00) := by decide
theorem test_decode_unknown_not_halt : decode 0b1111111111111110#16 = .error (.unknown 0xFFFE) := by decide
theorem test_decode_table_word : decodeTableWord 16 0b0111000000000101 = some (.loco 5) := by decide
theorem test_decode_table_unknown : decodeTableWord 16 0xF001 = none := by decide
theorem test_encode_masks : encodeOperand .loco 5000 = 0x7388 ∧ encodeOperand .insp (-1) = 0xFCFF := by decide

/-! ## Arithmetic (95_test_vectors.md 2.1) -/

theorem test_mask16 : mask16 65537 = 1 ∧ mask16 (-1) = 65535 ∧ mask16 (-65536) = 0 := by decide
theorem test_signed : signed 0x7FFF = 32767 ∧ signed 0x8000 = -32768 ∧ signed 0xFFFE = -2 := by decide

/-! ## One step (95_test_vectors.md 2.4) -/

/-- An engine just reset, then the word at `place`, the listed Memory words, `PC`, `AC` and `SP` set. -/
def engine (place : Word) (w ac sp : Word) (words : List (Nat × Word)) : State :=
  { State.reset with
    pc := place, ac := ac, sp := sp
    memory := ((place.toNat, w) :: words).foldl (fun m p => memWrite m p.1 p.2) [] }

/-- What the vectors list of a next state: `PC`, `AC`, `SP`, `halted`, the word at one address, the data cache's counts. -/
def summary (a : Nat) : Host.Outcome State Fault Refusal → Option (List Word × Bool × List Nat)
  | .next t => some ([t.pc, t.ac, t.sp, memRead t.memory a], t.halted, [t.dc.hitCount, t.dc.missCount])
  | .fault _ => none
  | .refused _ => none

/-- Vector A1. -/
theorem test_step_lodd : summary 10 (step (engine 0 0x000A 0 4095 [(10, 0x1234)])) =
    some ([1, 0x1234, 4095, 0x1234], false, [0, 1]) := by decide
/-- Vector A4. -/
theorem test_step_stod : summary 0 (step (engine 0 0x1000 0xBEEF 4095 [])) =
    some ([1, 0xBEEF, 4095, 0xBEEF], false, [0, 1]) := by decide
/-- Vector A6. -/
theorem test_step_addd : summary 5 (step (engine 0 0x2005 0x7FFF 4095 [(5, 1)])) =
    some ([1, 0x8000, 4095, 1], false, [0, 1]) := by decide
/-- Vector A7. -/
theorem test_step_subd : summary 12 (step (engine 0 0x300C 3 4095 [(12, 5)])) =
    some ([1, 0xFFFE, 4095, 5], false, [0, 1]) := by decide
/-- Vector A11, with `AC` as in A10. -/
theorem test_step_loco : summary 100 (step (engine 0 0x7FFF 0xFFFF 4095 [])) =
    some ([1, 0x0FFF, 4095, 0], false, [0, 0]) := by decide
/-- Vector L3. -/
theorem test_step_lodl : summary 0 (step (engine 1 0x8001 0 65535 [(0, 0x42)])) =
    some ([2, 0x42, 65535, 0x42], false, [0, 1]) := by decide
/-- Vector L2. -/
theorem test_step_lodl_out : summary 4095 (step (engine 0 0x8001 0 4095 [])) =
    some ([1, 0, 4095, 0], false, [0, 0]) := by decide
/-- Vector L4. -/
theorem test_step_stol : summary 4092 (step (engine 0 0x9002 0xFF 4090 [])) =
    some ([1, 0xFF, 4090, 0xFF], false, [0, 1]) := by decide
/-- Vector L5. -/
theorem test_step_stol_out : summary 0 (step (engine 0 0x9001 0xFF 4095 [])) =
    some ([1, 0xFF, 4095, 0x9001], false, [0, 0]) := by decide
/-- Vector L6. -/
theorem test_step_addl : summary 4094 (step (engine 0 0xA001 6 4093 [(4094, 6)])) =
    some ([1, 12, 4093, 6], false, [0, 1]) := by decide
/-- Vector L7. -/
theorem test_step_addl_out : summary 4095 (step (engine 0 0xA001 6 4095 [])) =
    some ([1, 6, 4095, 0], false, [0, 0]) := by decide
/-- Vector L8. -/
theorem test_step_subl : summary 4003 (step (engine 0 0xB003 4 4000 [(4003, 10)])) =
    some ([1, 0xFFFA, 4000, 10], false, [0, 1]) := by decide
/-- Vector J1. -/
theorem test_step_jpos_zero : summary 100 (step (engine 3 0x4010 0 4095 [])) =
    some ([16, 0, 4095, 0], false, [0, 0]) := by decide
/-- Vector J2. -/
theorem test_step_jpos_min : summary 100 (step (engine 3 0x4010 0x8000 4095 [])) =
    some ([4, 0x8000, 4095, 0], false, [0, 0]) := by decide
/-- Vector J5. -/
theorem test_step_jzer : summary 100 (step (engine 7 0x5002 0 4095 [])) =
    some ([2, 0, 4095, 0], false, [0, 0]) := by decide
/-- Vector J6. -/
theorem test_step_jzer_high : summary 100 (step (engine 7 0x5002 0x8000 4095 [])) =
    some ([8, 0x8000, 4095, 0], false, [0, 0]) := by decide
/-- Vector J8b. -/
theorem test_step_jump : summary 100 (step (engine 9 0x6009 1 4095 [])) =
    some ([9, 1, 4095, 0], false, [0, 0]) := by decide
/-- Vector J9. -/
theorem test_step_jneg : summary 100 (step (engine 2 0xC007 0x8000 4095 [])) =
    some ([7, 0x8000, 4095, 0], false, [0, 0]) := by decide
/-- Vector J11. -/
theorem test_step_jneg_zero : summary 100 (step (engine 2 0xC007 0 4095 [])) =
    some ([3, 0, 4095, 0], false, [0, 0]) := by decide
/-- Vector J15. -/
theorem test_step_jnze : summary 100 (step (engine 8 0xD002 0x8000 4095 [])) =
    some ([2, 0x8000, 4095, 0], false, [0, 0]) := by decide
/-- Vector J14. -/
theorem test_step_jnze_zero : summary 100 (step (engine 8 0xD002 0 4095 [])) =
    some ([9, 0, 4095, 0], false, [0, 0]) := by decide
/-- Vector CR4. -/
theorem test_step_call : summary 99 (step (engine 4095 0xE123 0 100 [])) =
    some ([291, 0, 99, 0x1000], false, [0, 1]) := by decide
/-- Vector CR2. -/
theorem test_step_call_dropped : summary 4095 (step (engine 0 0xE005 0 0 [])) =
    some ([5, 0, 65535, 0], false, [0, 0]) := by decide
/-- Vector CR6. -/
theorem test_step_retn : summary 4094 (step (engine 5 0xF800 0 4094 [(4094, 0x9000)])) =
    some ([36864, 0, 4095, 0x9000], false, [0, 1]) := by decide
/-- Vector CR8. -/
theorem test_step_retn_wraps : summary 0 (step (engine 5 0xF800 0 65535 [])) =
    some ([0, 0, 0, 0], false, [0, 0]) := by decide
/-- Vector K4. -/
theorem test_step_pshi_own_slot : summary 99 (step (engine 0 0xF000 0x63 100 [(99, 0x1111)])) =
    some ([1, 0x63, 99, 0x1111], false, [1, 1]) := by decide
/-- Vector K5. -/
theorem test_step_pshi_dropped : summary 5 (step (engine 0 0xF000 5 0 [(5, 7)])) =
    some ([1, 5, 65535, 7], false, [0, 1]) := by decide
/-- Vector K6. -/
theorem test_step_popi : summary 6 (step (engine 0 0xF200 6 4094 [(4094, 0x04D2)])) =
    some ([1, 6, 4095, 0x04D2], false, [0, 2]) := by decide
/-- Vector K7. -/
theorem test_step_popi_dropped : summary 4094 (step (engine 0 0xF200 0x1388 4094 [(4094, 9)])) =
    some ([1, 0x1388, 4095, 9], false, [0, 1]) := by decide
/-- Vector K12. -/
theorem test_step_push : summary 4095 (step (engine 0 0xF400 7 4096 [])) =
    some ([1, 7, 4095, 7], false, [0, 1]) := by decide
/-- Vector K11. -/
theorem test_step_push_dropped : summary 4095 (step (engine 0 0xF400 7 0 [])) =
    some ([1, 7, 65535, 0], false, [0, 0]) := by decide
/-- Vector K13. -/
theorem test_step_pop : summary 99 (step (engine 0 0xF600 0 99 [(99, 7)])) =
    some ([1, 7, 100, 7], false, [0, 1]) := by decide
/-- Vector K14. -/
theorem test_step_pop_out : summary 4095 (step (engine 0 0xF600 9 4096 [])) =
    some ([1, 0, 4097, 0], false, [0, 0]) := by decide
/-- Vector K17. -/
theorem test_step_swap : summary 100 (step (engine 0 0xFA00 0xFFFF 0 [])) =
    some ([1, 0, 65535, 0], false, [0, 0]) := by decide
/-- Vector K20. -/
theorem test_step_insp_wraps : summary 100 (step (engine 0 0xFCFF 0 65535 [])) =
    some ([1, 0, 254, 0], false, [0, 0]) := by decide
/-- Vector K23. -/
theorem test_step_desp_wraps : summary 100 (step (engine 0 0xFE01 0 0 [])) =
    some ([1, 0, 65535, 0], false, [0, 0]) := by decide
/-- Vector H2. -/
theorem test_step_halt : summary 4095 (step (engine 4095 0xFFFF 0 4095 [])) =
    some ([4096, 0, 4095, 0xFFFF], true, [0, 0]) := by decide
/-- Vector H4. -/
theorem test_step_unknown : summary 4094 (step (engine 0 0xF001 5 4095 [(5, 1)])) =
    some ([1, 5, 4095, 0], false, [0, 0]) := by decide
/-- Vector H1: one flush entry in each event log. -/
theorem test_halt_flushes : (match step (engine 9 0xFFFF 0 4095 []) with
    | .next t => (t.mar, t.ir, t.mbr, t.ic.eventLog, t.dc.eventLog)
    | .fault _ => (0, 0, 0, [], [])
    | .refused _ => (0, 0, 0, [], [])) = (9, 0xFFFF, 0xFFFF, [.miss 9, .flush], [.flush]) := by decide

/-- Vector T3: the halting step leaves an out-of-range program counter. -/
theorem test_step_pc_out : summary 0 (step (State.reset.setPc 36864)) = some ([36864, 0, 4095, 0], true, [0, 0]) := by decide

/-- Vector K1, calls 1, 4, 6: a read miss, the eviction of its block, a write-allocate. -/
theorem test_cache_evicts :
    let m := memWrite (memWrite [] 1 1) 33 33
    let c1 := ((Cache.empty Config.default.dc).read m 1).2
    let c2 := (c1.read m 33).2
    (c1.isHit 1, c2.isHit 1, c2.isHit 32, c2.wordAt 33, (c2.write m 2 7).1.lineAt 0, (c2.missCount)) =
      (true, false, true, 33, { valid := true, tag := 0, dirty := false, block := [0, 1, 7, 0] }, 2) := by decide

/-- Vectors M2, M4. -/
theorem test_cache_mapping :
    let c := Cache.empty Config.default.ic
    [c.lineIndex 37, c.tagOf 37, c.offset 37, c.lineIndex 4095, c.tagOf 4095, c.offset 4095] = [1, 1, 1, 7, 127, 3] := by decide

/-- The word that `withFetchWord` places is the one the next step runs, also from a halted engine out of range. -/
theorem test_fetch_word : summary 0 (step (State.reset.withFetchWord 16 0x7005)) =
    some ([1, 5, 4095, 0x7005], false, [0, 0]) := by decide
theorem test_fetch_word_halted : summary 0 (step (((State.reset.setPc 5000).setHalted true).withFetchWord 16 0x7005)) =
    some ([1, 5, 4095, 0x7005], false, [0, 0]) := by decide

/-- Memory keeps its canonical form: writing what an unlisted byte reads as removes the entry. -/
theorem test_memory_canonical : memWrite (memWrite [] 3 0x1200) 3 0 = [] ∧ memWrite [] 3 0x1200 = [(7, 0x12)] := by decide
theorem test_memory_out_of_range : memWrite [] 4096 7 = [] ∧ memRead (memWrite [] 4095 7) 4096 = 0 := by decide

/-! ## The assembler (95_test_vectors.md 2.6) -/

theorem test_asm_x6 : compile "DESP 0x10".toList = { binary := [0xFE10], errors := [] } := by decide
theorem test_asm_x7 : compile "JUMP".toList = { binary := [], errors := [(1, .missingOperand)] } := by decide
theorem test_asm_x12 : compile "FOO".toList = { binary := [], errors := [(1, .unknownToken)] } := by decide
theorem test_asm_x16 : compile "JUMP end\nx:\ny: 7\nend: HALT\nx".toList =
    { binary := [0x6002, 0x0007, 0xFFFF, 0x0001], errors := [] } := by decide
theorem test_load_program : (loadProgram [0x7001, 0xFFFF] (State.reset.setAc 5)) =
    { State.reset with memory := [(0, 0x01), (1, 0x70), (2, 0xFF), (3, 0xFF)] } := by decide


/-! ## Witnesses: states and operands that meet the hypotheses of the statements -/

theorem wf_foldl (words : List (Nat × Word)) (m : Memory) (h : m.wf) :
    (words.foldl (fun m p => memWrite m p.1 p.2) m).wf := by
  induction words generalizing m with
  | nil => exact h
  | cons p ps ih => exact ih _ (memWrite_wf h p.1 p.2)

/-- Every state of the vectors above meets the invariant. -/
theorem engine_inv (place w ac sp : Word) (words : List (Nat × Word)) : (engine place w ac sp words).Inv where
  memoryCanonical := wf_foldl _ _ Memory.wf_nil
  icShaped := Cache.Shaped.empty rfl
  dcShaped := Cache.Shaped.empty rfl
  dcCoherent := Coherent.empty _ _
  icCounted := Cache.Counted.empty _
  dcCounted := Cache.Counted.empty _
  unusedZero := ⟨rfl, rfl, rfl, rfl, rfl, rfl, rfl⟩
  mbrIsIr := rfl
  haltWordHalts := fun h => absurd (show (0 : Word) = 0xFFFF from h) (by decide)

/-- The premises shared by the instruction statements, at the engine of a vector. -/
theorem witness_data (place w ac sp : Word) (words : List (Nat × Word)) :
    (engine place w ac sp words).memory.wf ∧ (engine place w ac sp words).dc.Shaped ∧
      Coherent (engine place w ac sp words).dc (engine place w ac sp words).memory :=
  ⟨(engine_inv _ _ _ _ _).memoryCanonical, (engine_inv _ _ _ _ _).dcShaped, (engine_inv _ _ _ _ _).dcCoherent⟩

theorem witness_EncodeOfDecode : decode 0xFCFF = .ok (.insp 255) ∧ decode 0x0FFF = .ok (.lodd 4095) := by decide

/-- The first and the last word of a range, and their neighbours that are legal. -/
theorem witness_UnknownWordsAreTheEightRanges : decode 0xFD00 = .error (.unknown 0xFD00) ∧
    decode 0xFDFF = .error (.unknown 0xFDFF) ∧ decode 0xFCFF = .ok (.insp 255) ∧ decode 0xFE00 = .ok (.desp 0) ∧
    decode 0xFFFE = .error (.unknown 0xFFFE) ∧ decode 0xFFFF = .ok .halt := by decide

theorem witness_ResetMeetsInvariant :
    Config.wellFormed { ic := { lineCount := 1, blockSize := 1 }, dc := { lineCount := 8, blockSize := 3 } } = true := by
  decide

theorem witness_FirstFetchAfterLoadMisses : State.reset.ic.Shaped ∧ State.reset.dc.Shaped :=
  ⟨Cache.Shaped.empty rfl, Cache.Shaped.empty rfl⟩

/-- The data side after one read of address 0: its first line holds the block 0..3. -/
def warm : Cache := ((Cache.empty Config.default.dc).read [] 0).2

theorem warm_shaped : warm.Shaped := (Cache.Shaped.empty (p := Config.default.dc) rfl).access [] 0

theorem witness_CacheMappingIsDirect : warm.Shaped ∧ warm.blockSize = 4 ∧ warm.lines.length = 8 ∧
    (4095#16).toNat < 4096 ∧ warm.isHit 3 = true ∧ warm.isHit 4 = false ∧ warm.tagOf (4095#16).toNat = 127 :=
  ⟨warm_shaped, by decide⟩

theorem witness_CacheReadHitAndMiss : warm.Shaped ∧ warm.isHit 3 = true ∧ warm.isHit 32 = false :=
  ⟨warm_shaped, by decide⟩

/-- Both clauses on the range, at its boundary, and both clauses on the hit. -/
theorem witness_CacheWriteReachesLineAndMemory : warm.Shaped ∧ Memory.wf [] ∧ 4095 < 4096 ∧ 4096 ≤ 4096 ∧
    warm.isHit 0 = true ∧ warm.isHit 4095 = false :=
  ⟨warm_shaped, by decide⟩

/-- Between the two accesses to 1, one to the same block and one to another line. -/
theorem witness_SecondAccessHitsUnlessEvicted : warm.Shaped ∧
    ∀ k ∈ [CacheCall.write 2 7, CacheCall.read 36], warm.lineIndex k.address = warm.lineIndex (CacheCall.read 1).address →
      warm.tagOf k.address = warm.tagOf (CacheCall.read 1).address :=
  ⟨warm_shaped, by decide⟩

/-- The state after the fetch of STOD 0 from address 0 meets the invariant. -/
theorem fetched_inv : (fetch (engine 0 0x1000 0xBEEF 4095 [])).Inv where
  memoryCanonical := (engine_inv 0 0x1000 0xBEEF 4095 []).memoryCanonical
  icShaped := (Cache.Shaped.empty (p := Config.default.ic) rfl).access
    (engine 0 0x1000 0xBEEF 4095 []).memory 0
  dcShaped := Cache.Shaped.empty rfl
  dcCoherent := Coherent.empty _ _
  icCounted := (Cache.Counted.empty Config.default.ic).access (engine 0 0x1000 0xBEEF 4095 []).memory 0
  dcCounted := Cache.Counted.empty _
  unusedZero := ⟨rfl, rfl, rfl, rfl, rfl, rfl, rfl⟩
  mbrIsIr := rfl
  haltWordHalts := fun h => absurd h (by decide)

/-- STOD 0 right after the fetch of itself from address 0: it stores over a word the instruction cache holds. -/
theorem witness_StoresDoNotReachResidentFetches :
    let s := fetch (engine 0 0x1000 0xBEEF 4095 [])
    s.Inv ∧ s.ic.isHit 0 = true ∧ ∃ t, exec (.stod 0) s = .next t ∧ memRead t.memory 0 = 0xBEEF ∧
      (t.ic.read t.memory 0).1 = 0x1000 :=
  ⟨fetched_inv, by decide, _, rfl, by decide, by decide⟩

theorem witness_EvictionMakesFetchReadMemory : State.reset.ic.Shaped ∧
    State.reset.ic.lineIndex (32#16).toNat = State.reset.ic.lineIndex (0#16).toNat ∧
    State.reset.ic.tagOf (32#16).toNat ≠ State.reset.ic.tagOf (0#16).toNat :=
  ⟨Cache.Shaped.empty rfl, by decide⟩

theorem witness_HaltedStepChangesNothing : (State.reset.setHalted true).halted = true := rfl

/-- The range test at both sides of its boundary. -/
theorem witness_OutOfRangePcHaltsOnly : (State.reset.setPc 4096).halted = false ∧
    4096 ≤ (State.reset.setPc 4096).pc.toNat ∧ 4096 ≤ (State.reset.setPc 65535).pc.toNat := by decide

theorem witness_StepFetchesAndRunsDecoded :
    (∃ i, (engine 4095 0xE123 0 100 []).halted = false ∧ (engine 4095 0xE123 0 100 []).pc.toNat < 4096 ∧
      decode (fetch (engine 4095 0xE123 0 100 [])).ir = .ok i) ∧
    ∃ w, (engine 1 0xF123 3 4095 []).pc.toNat < 4096 ∧
      decode (fetch (engine 1 0xF123 3 4095 [])).ir = .error (.unknown w) :=
  ⟨⟨.call 0x123, by decide⟩, 0xF123, by decide⟩

theorem witness_UnknownWordIsLoggedNoOp : (engine 1 0xF123 3 4095 []).halted = false ∧
    (engine 1 0xF123 3 4095 []).pc.toNat < 4096 ∧
    decode (fetch (engine 1 0xF123 3 4095 [])).ir = .error (.unknown 0xF123) := by decide

theorem witness_StepKeepsInvariant : (engine 0 0xF000 5 4095 [(5, 0x04D2)]).Inv ∧
    ∃ t, step (engine 0 0xF000 5 4095 [(5, 0x04D2)]) = .next t ∧ t.sp = 4094 ∧ t.dc.missCount = 2 :=
  ⟨engine_inv _ _ _ _ _, _, rfl, by decide⟩

theorem witness_ReachableStatesMeetInvariant : ∃ s, Reachable s ∧ s.halted = true :=
  ⟨_,
    .move .step _ _ (.move (.loadProgram [0xFFFF]) _ _ (.powerOn Config.default rfl) rfl) rfl, by decide⟩

theorem witness_StepKeepsCacheSizes : ∃ t, step State.reset = .next t ∧ t.ic.missCount = 1 := ⟨_, rfl, by decide⟩

theorem witness_OnlyHaltStopsAndOnlyHostRestarts :
    (∃ t, exec .halt State.reset = .next t ∧ t.halted = true) ∧
    (∃ t, execUnknown 0xF001 (State.reset.setHalted true) = .next t) ∧
    (∃ t, HostOp.step.apply (State.reset.setHalted true) = .next t ∧ t.halted = true) ∧
    ∃ t, HostOp.reset.apply (State.reset.setHalted true) = .next t ∧ t.halted = false :=
  ⟨⟨_, rfl, rfl⟩, ⟨_, rfl⟩, ⟨_, rfl, rfl⟩, _, rfl, rfl⟩

/-- Both ends of a run. -/
theorem witness_EndOfRunIsToldByIr :
    ((engine 9 0xFFFF 0 4095 []).Inv ∧ ∃ t, step (engine 9 0xFFFF 0 4095 []) = .next t ∧ EndedByHalt t) ∧
    (engine 4096 0 0 4095 []).Inv ∧ ∃ t, step (engine 4096 0 0 4095 []) = .next t ∧ EndedByPcOutOfRange t :=
  ⟨⟨engine_inv _ _ _ _ _, _, rfl, by decide, by decide⟩, engine_inv _ _ _ _ _, _, rfl, by decide, by decide⟩

/-- Both ways out of range. -/
theorem witness_PcLeavesRangeInTwoWays :
    (∃ t, step (State.reset.setPc 4095) = .next t ∧ t.pc = 4096) ∧
    ∃ t, step (engine 5 0xF800 0 4094 [(4094, 0x9000)]) = .next t ∧ t.pc = 0x9000 ∧
      decode (fetch (engine 5 0xF800 0 4094 [(4094, 0x9000)])).ir = .ok .retn :=
  ⟨⟨_, rfl, by decide⟩, _, rfl, by decide⟩

theorem witness_ExecuteWritesOnlyNamedRegisters :
    ∃ t, exec .popi (engine 0 0xF200 6 4094 [(4094, 9)]) = .next t ∧ RegName.ac ∉ writtenRegisters .popi ∧
      Instr.popi ≠ .halt :=
  ⟨_, rfl, by decide⟩

/-- A store in range at the boundary, one out of range, and an instruction that stores nothing. -/
theorem witness_ExecuteStoresOnlyAtItsTarget :
    (∃ t, exec .popi (engine 0 0xF200 4095 4094 [(4094, 9)]) = .next t ∧
      storeTarget .popi (engine 0 0xF200 4095 4094 [(4094, 9)]) = some 4095 ∧ memRead t.memory 4095 = 9) ∧
    (∃ t, exec .push (engine 0 0xF400 7 0 []) = .next t ∧ storeTarget .push (engine 0 0xF400 7 0 []) = some 65535) ∧
    ∃ t, exec .pop State.reset = .next t ∧ storeTarget .pop State.reset = none :=
  ⟨⟨_, rfl, by decide⟩, ⟨_, rfl, by decide⟩, _, rfl, rfl⟩

theorem witness_DataAccessesAreCountedInOrder :
    ∃ t, exec .pshi (engine 0 0xF000 0x63 100 []) = .next t ∧ t.dc.eventLog = [.miss 99, .hit 99] ∧
      dataAccesses .pshi (engine 0 0xF000 0x63 100 []) = [99, 99] :=
  ⟨_, rfl, by decide⟩

theorem witness_InstructionCacheCountsFetches :
    (∃ t, step (State.reset.setPc 4095) = .next t ∧ t.ic.missCount = 1) ∧
    ∃ t, step (State.reset.setPc 4096) = .next t ∧ t.ic.missCount = 0 :=
  ⟨⟨_, rfl, by decide⟩, _, rfl, by decide⟩

/-- LODD, ADDD, SUBD at the last address. -/
theorem witness_LoddLoadsMemoryWord : (engine 0 0x0FFF 0 4095 [(4095, 7)]).dc.Shaped ∧
    Coherent (engine 0 0x0FFF 0 4095 [(4095, 7)]).dc (engine 0 0x0FFF 0 4095 [(4095, 7)]).memory :=
  (witness_data _ _ _ _ _).2

theorem witness_AdddAndSubdWrap : (engine 0 0x2FFF 1 4095 [(4095, 0xFFFF)]).dc.Shaped ∧
    Coherent (engine 0 0x2FFF 1 4095 [(4095, 0xFFFF)]).dc (engine 0 0x2FFF 1 4095 [(4095, 0xFFFF)]).memory :=
  (witness_data _ _ _ _ _).2

theorem witness_StodStoresAccumulator : (engine 0 0x1FFF 7 4095 []).memory.wf ∧ (engine 0 0x1FFF 7 4095 []).dc.Shaped :=
  ⟨(witness_data _ _ _ _ _).1, (witness_data _ _ _ _ _).2.1⟩

/-- The last effective address in range, and the first out of range. -/
theorem witness_LodlLoadsLocalWord : (engine 0 0x8000 0 4095 []).dc.Shaped ∧
    Coherent (engine 0 0x8000 0 4095 []).dc (engine 0 0x8000 0 4095 []).memory ∧
    (4095 : Word) = (engine 0 0x8000 0 4095 []).sp + (0 : Field12).setWidth 16 ∧
    (4096 : Word) = (engine 0 0x8000 0 4095 []).sp + (1 : Field12).setWidth 16 :=
  ⟨(witness_data _ _ _ _ _).2.1, (witness_data _ _ _ _ _).2.2, by decide⟩

theorem witness_StolStoresLocalWord : (engine 0 0x9000 7 4095 []).memory.wf ∧ (engine 0 0x9000 7 4095 []).dc.Shaped ∧
    (4095 : Word) = (engine 0 0x9000 7 4095 []).sp + (0 : Field12).setWidth 16 ∧
    (4096 : Word) = (engine 0 0x9000 7 4095 []).sp + (1 : Field12).setWidth 16 :=
  ⟨(witness_data _ _ _ _ _).1, (witness_data _ _ _ _ _).2.1, by decide⟩

theorem witness_AddlAndSublWrap : (engine 0 0xA000 6 4095 [(4095, 6)]).dc.Shaped ∧
    Coherent (engine 0 0xA000 6 4095 [(4095, 6)]).dc (engine 0 0xA000 6 4095 [(4095, 6)]).memory ∧
    (4095 : Word) = (engine 0 0xA000 6 4095 [(4095, 6)]).sp + (0 : Field12).setWidth 16 ∧
    (4096 : Word) = (engine 0 0xA000 6 4095 [(4095, 6)]).sp + (1 : Field12).setWidth 16 :=
  ⟨(witness_data _ _ _ _ _).2.1, (witness_data _ _ _ _ _).2.2, by decide⟩

/-- The top of the stack at the last address, and out of range by wrapping. -/
theorem witness_CallPushesNextPc : (engine 0 0xE005 0 4096 []).memory.wf ∧ (engine 0 0xE005 0 4096 []).dc.Shaped ∧
    (4095 : Word) = (engine 0 0xE005 0 4096 []).sp - 1 ∧ (65535 : Word) = (engine 0 0xE005 0 0 []).sp - 1 :=
  ⟨(witness_data _ _ _ _ _).1, (witness_data _ _ _ _ _).2.1, by decide⟩

theorem witness_PushStoresAccumulator : (engine 0 0xF400 7 1 []).memory.wf ∧ (engine 0 0xF400 7 1 []).dc.Shaped ∧
    (0 : Word) = (engine 0 0xF400 7 1 []).sp - 1 ∧ (4096 : Word) = (engine 0 0xF400 7 4097 []).sp - 1 :=
  ⟨(witness_data _ _ _ _ _).1, (witness_data _ _ _ _ _).2.1, by decide⟩

/-- The stack pointer at the last address in range, and at the first out of range. -/
theorem witness_RetnPopsPc : (engine 0 0xF800 0 4095 [(4095, 9)]).dc.Shaped ∧
    Coherent (engine 0 0xF800 0 4095 [(4095, 9)]).dc (engine 0 0xF800 0 4095 [(4095, 9)]).memory ∧
    (engine 0 0xF800 0 4095 [(4095, 9)]).sp.toNat < 4096 ∧ ¬ (engine 0 0xF800 0 4096 []).sp.toNat < 4096 :=
  ⟨(witness_data _ _ _ _ _).2.1, (witness_data _ _ _ _ _).2.2, by decide⟩

theorem witness_CallThenRetnRestoresPc : (engine 0 0xE005 0 1 []).memory.wf ∧ (engine 0 0xE005 0 1 []).dc.Shaped ∧
    ((engine 0 0xE005 0 1 []).sp - 1).toNat < 4096 :=
  ⟨(witness_data _ _ _ _ _).1, (witness_data _ _ _ _ _).2.1, by decide⟩

/-- PSHI with its operand in range; the pushed word out of range for another operand. -/
theorem witness_PshiPushesWordAtAccumulator :
    let s := engine 0 0xF000 5 4095 [(5, 0x04D2)]
    s.memory.wf ∧ s.dc.Shaped ∧ Coherent s.dc s.memory ∧ (4094 : Word) = s.sp - 1 ∧
    (0x04D2 : Word) = (if s.ac.toNat < 4096 then memRead s.memory s.ac.toNat else 0) ∧
    ¬ (s.setAc 4096).ac.toNat < 4096 :=
  ⟨(witness_data _ _ _ _ _).1, (witness_data _ _ _ _ _).2.1, (witness_data _ _ _ _ _).2.2, by decide⟩

/-- POPI with the popped word in range; its store in range and out of range. -/
theorem witness_PopiPopsToAccumulatorAddress :
    let s := engine 0 0xF200 4095 4094 [(4094, 9)]
    s.memory.wf ∧ s.dc.Shaped ∧ Coherent s.dc s.memory ∧
    (9 : Word) = (if s.sp.toNat < 4096 then memRead s.memory s.sp.toNat else 0) ∧
    s.ac.toNat < 4096 ∧ ¬ (s.setAc 4096).ac.toNat < 4096 :=
  ⟨(witness_data _ _ _ _ _).1, (witness_data _ _ _ _ _).2.1, (witness_data _ _ _ _ _).2.2, by decide⟩

/-- For both halves: a pop in range, and a push whose slot is address 0. -/
theorem witness_PopLoadsAccumulator :
    let s := engine 0 0xF600 7 1 [(1, 9)]
    s.dc.Shaped ∧ Coherent s.dc s.memory ∧ s.sp.toNat < 4096 ∧ (s.sp - 1).toNat < 4096 :=
  ⟨(witness_data _ _ _ _ _).2.1, (witness_data _ _ _ _ _).2.2, by decide⟩

theorem witness_EachQueuedLineGivesWordOrError : (pass1 AsmParams.default "FOO\nHALT".toList).instructionLines =
    ["FOO".toList, "HALT".toList] := by decide

theorem witness_LabelBindsToCounterLastWins :
    splitLabel (trim (stripComment AsmParams.default " start: LOCO 5 ; c".toList)) =
      (some "start".toList, "LOCO 5".toList) ∧ "other".toList ≠ "start".toList := by decide

theorem witness_ErrorFreeBodyLandsAtItsAddress :
    (∃ t, compileAndLoad AsmParams.default "LOCO 5\nHALT".toList State.reset = some t) ∧
    (pass1 AsmParams.default "LOCO 5\nHALT".toList).instructionLines[1]? = some "HALT".toList ∧ 1 < 4096 :=
  ⟨⟨_, rfl⟩, by decide⟩

theorem witness_AdmittedSourceNeedsNoDecision :
    sourceAdmitted { commentMarker := ';', intSyntax := .unsignedDecimal } "a: LOCO 5\nADDD a".toList = true ∧
    (compileWith { commentMarker := ';', intSyntax := .unsignedDecimal } "a: LOCO 5\nADDD a".toList).errors = [] ∧
    "a: LOCO 5\nADDD a".toList.contains '#' = false := by decide

/-- A queued body; a mnemonic with and without its operand; a token that is no mnemonic. The label `7` shadows the number as
an operand and not as a datum (R234, R236). -/
theorem witness_BodyGivesWordOrErrorByItsTokens :
    "LOCO 7".toList ∈ (pass1 AsmParams.default "7: LOCO 7".toList).instructionLines ∧
    tokens "LOCO 7".toList = Mnemonic.loco.spelling :: ["7".toList] ∧ tokens "HALT".toList = Mnemonic.halt.spelling :: [] ∧
    tokens "7 9".toList = "7".toList :: ["9".toList] ∧ (∀ m ∈ Mnemonic.all, "7".toList ≠ m.spelling) ∧
    compile "7: LOCO 7\n7 9".toList = { binary := [0x7000, 7], errors := [] } := by decide

theorem mnemonic_all_complete (m : Mnemonic) : m ∈ Mnemonic.all := by cases m <;> decide

end Sys2Proof.Tests
end

namespace Sys2Proof.Machine

/-! ## Reset (R301): an empty cache hits nowhere -/

/-- R35: every line of an empty cache is the invalid line. -/
theorem Cache.eq_invalid_of_mem_empty {p : CacheParams} {l : CacheLine} (h : l ∈ (Cache.empty p).lines) :
    l = CacheLine.invalid p.blockSize :=
  List.eq_of_mem_replicate h

@[simp] theorem Cache.empty_lineAt (p : CacheParams) (a : Nat) :
    (Cache.empty p).lineAt a = CacheLine.invalid p.blockSize :=
  List.getElem?_getD_replicate_default_eq _ _ _

@[simp] theorem Cache.empty_isHit (p : CacheParams) (a : Nat) : (Cache.empty p).isHit a = false := by
  rw [Cache.isHit, Cache.empty_lineAt]
  rfl

/-- R301: what `reset()` makes of the cache `c`, an empty one of the same sizes. -/
theorem Cache.empty_of_sizes (c : Cache) :
    let e := Cache.empty { lineCount := c.lines.length, blockSize := c.blockSize }
    e.hitCount = 0 ∧ e.missCount = 0 ∧ e.eventLog = [] ∧ e.blockSize = c.blockSize ∧
      e.lines.length = c.lines.length ∧ (∀ l ∈ e.lines, l.valid = false) ∧ ∀ a, e.isHit a = false :=
  ⟨rfl, rfl, rfl, rfl, List.length_replicate, fun _ hl => Cache.eq_invalid_of_mem_empty hl ▸ rfl,
    Cache.empty_isHit _⟩

/-- Settles O6: the reset state is written out field by field, and its caches are empty ones of the old sizes. -/
theorem hostResetZeroesEverything : Obligations.HostResetZeroesEverything := by
  intro s
  refine ⟨fun r => ?_, rfl, rfl, memRead_nil, fun c hc => ?_⟩
  · cases r <;> rfl
  · rw [List.mem_pair] at hc
    obtain rfl | rfl := hc
    · exact Cache.empty_of_sizes s.ic
    · exact Cache.empty_of_sizes s.dc

/-! ## The register frame of execute (R22) -/

theorem State.reg_setPc (s : State) (v : Word) (r : RegName) :
    (s.setPc v).reg r = if r = .pc then v else s.reg r := by
  cases r <;> rfl

theorem State.reg_setAc (s : State) (v : Word) (r : RegName) :
    (s.setAc v).reg r = if r = .ac then v else s.reg r := by
  cases r <;> rfl

theorem State.reg_setSp (s : State) (v : Word) (r : RegName) :
    (s.setSp v).reg r = if r = .sp then v else s.reg r := by
  cases r <;> rfl

@[simp] theorem State.reg_setHalted (s : State) (v : Bool) (r : RegName) : (s.setHalted v).reg r = s.reg r := by
  cases r <;> rfl

@[simp] theorem State.reg_setMemory (s : State) (v : Memory) (r : RegName) : (s.setMemory v).reg r = s.reg r := by
  cases r <;> rfl

@[simp] theorem State.reg_setIc (s : State) (v : Cache) (r : RegName) : (s.setIc v).reg r = s.reg r := by
  cases r <;> rfl

@[simp] theorem State.reg_setDc (s : State) (v : Cache) (r : RegName) : (s.setDc v).reg r = s.reg r := by
  cases r <;> rfl

@[simp] theorem dRead_reg (s : State) (a : Word) (r : RegName) : (dRead s a).2.reg r = s.reg r := by
  rw [dRead_state, State.reg_setDc]

@[simp] theorem dWrite_reg (s : State) (a v : Word) (r : RegName) : (dWrite s a v).reg r = s.reg r := by
  rw [dWrite_state, State.reg_setMemory, State.reg_setDc]

/-- `t` differs from `s` in the registers `rs`, Memory and the data cache at most: the frame that every arm of R143 but
HALT has, with the registers R22 names for it. -/
structure State.KeepsAllBut (rs : List RegName) (s t : State) : Prop where
  reg      : ∀ r, r ∉ rs → t.reg r = s.reg r
  microLog : t.microLog = s.microLog
  halted   : t.halted = s.halted
  ic       : t.ic = s.ic

namespace State.KeepsAllBut

variable {rs : List RegName} {s t : State}

theorem refl (rs : List RegName) (s : State) : s.KeepsAllBut rs s := ⟨fun _ _ => rfl, rfl, rfl, rfl⟩

theorem setPc (k : s.KeepsAllBut rs t) (hpc : RegName.pc ∈ rs) (v : Word) : s.KeepsAllBut rs (t.setPc v) :=
  ⟨fun r hr => by rw [State.reg_setPc, if_neg (ne_of_mem_of_not_mem hpc hr).symm, k.reg r hr],
    k.microLog, k.halted, k.ic⟩

theorem setAc (k : s.KeepsAllBut rs t) (hac : RegName.ac ∈ rs) (v : Word) : s.KeepsAllBut rs (t.setAc v) :=
  ⟨fun r hr => by rw [State.reg_setAc, if_neg (ne_of_mem_of_not_mem hac hr).symm, k.reg r hr],
    k.microLog, k.halted, k.ic⟩

theorem setSp (k : s.KeepsAllBut rs t) (hsp : RegName.sp ∈ rs) (v : Word) : s.KeepsAllBut rs (t.setSp v) :=
  ⟨fun r hr => by rw [State.reg_setSp, if_neg (ne_of_mem_of_not_mem hsp hr).symm, k.reg r hr],
    k.microLog, k.halted, k.ic⟩

/-- R74: a data read writes no register. -/
theorem dRead (k : s.KeepsAllBut rs t) (a : Word) : s.KeepsAllBut rs (dRead t a).2 :=
  ⟨fun r hr => (dRead_reg t a r).trans (k.reg r hr), (dRead_microLog t a).trans k.microLog,
    (dRead_halted t a).trans k.halted, (dRead_ic t a).trans k.ic⟩

/-- R75: a data write writes no register. -/
theorem dWrite (k : s.KeepsAllBut rs t) (a v : Word) : s.KeepsAllBut rs (dWrite t a v) :=
  ⟨fun r hr => (dWrite_reg t a v r).trans (k.reg r hr), (dWrite_microLog t a v).trans k.microLog,
    (dWrite_halted t a v).trans k.halted, (dWrite_ic t a v).trans k.ic⟩

/-- R24: a push writes no register but `SP`. -/
theorem pushWord (k : s.KeepsAllBut rs t) (hsp : RegName.sp ∈ rs) (v : Word) : s.KeepsAllBut rs (pushWord t v) :=
  (k.setSp hsp _).dWrite _ v

/-- R24: a pop writes no register but `SP`. -/
theorem popWord (k : s.KeepsAllBut rs t) (hsp : RegName.sp ∈ rs) : s.KeepsAllBut rs (popWord t).2 :=
  (k.dRead _).setSp hsp _

/-- R180: a jump, taken or not, writes no register but `PC`. -/
theorem setPcIf (k : s.KeepsAllBut rs t) (hpc : RegName.pc ∈ rs) (cond : Bool) (v : Word) :
    s.KeepsAllBut rs (if cond then t.setPc v else t) := by
  cases cond
  · exact k
  · exact k.setPc hpc v

end State.KeepsAllBut

/-- R22, R144 (e): every instruction but HALT answers with a next state, which differs in the registers its row names,
Memory and the data cache at most. -/
theorem exec_next_keepsAllBut {i : Instr} (hi : i ≠ .halt) (s : State) :
    ∃ t, exec i s = .next t ∧ s.KeepsAllBut (writtenRegisters i) t := by
  have k := State.KeepsAllBut.refl (writtenRegisters i) s
  cases i with
  | lodd _ | addd _ | subd _ | lodl _ | addl _ | subl _ => exact ⟨_, rfl, (k.dRead _).setAc (.head _) _⟩
  | loco _ => exact ⟨_, rfl, k.setAc (.head _) _⟩
  | stod _ | stol _ => exact ⟨_, rfl, k.dWrite _ _⟩
  | jpos _ | jzer _ | jneg _ | jnze _ => exact ⟨_, rfl, k.setPcIf (.head _) _ _⟩
  | jump _ => exact ⟨_, rfl, k.setPc (.head _) _⟩
  | call _ => exact ⟨_, rfl, (k.pushWord (.head _) _).setPc (.tail _ (.head _)) _⟩
  | retn => exact ⟨_, rfl, (k.popWord (.tail _ (.head _))).setPc (.head _) _⟩
  | push => exact ⟨_, rfl, k.pushWord (.head _) _⟩
  | pshi => exact ⟨_, rfl, (k.dRead _).pushWord (.head _) _⟩
  | pop => exact ⟨_, rfl, (k.popWord (.tail _ (.head _))).setAc (.head _) _⟩
  | popi => exact ⟨_, rfl, ((k.dRead _).dWrite _ _).setSp (.head _) _⟩
  | swap => exact ⟨_, rfl, (k.setAc (.head _) _).setSp (.tail _ (.head _)) _⟩
  | insp _ | desp _ => exact ⟨_, rfl, k.setSp (.head _) _⟩
  | halt => exact absurd rfl hi

theorem exec_keepsAllBut {i : Instr} (hi : i ≠ .halt) {s t : State} (h : exec i s = .next t) :
    s.KeepsAllBut (writtenRegisters i) t := by
  obtain ⟨u, hu, k⟩ := exec_next_keepsAllBut hi s
  obtain rfl := Host.Outcome.next.inj (hu.symm.trans h)
  exact k

/-- R210: HALT stops the engine and flushes both caches. -/
theorem exec_halt (s : State) : exec .halt s = .next (flushBoth (enterHalted s)) := rfl

@[simp] theorem flushBoth_reg (s : State) (r : RegName) : (flushBoth s).reg r = s.reg r := by
  rw [flushBoth, State.reg_setDc, State.reg_setIc]

/-- Settles O27: `exec_keepsAllBut` covers all but HALT, whose flush entries leave lines and counters alone. -/
theorem executeWritesOnlyNamedRegisters : Obligations.ExecuteWritesOnlyNamedRegisters := by
  intro i s t h
  by_cases hi : i = .halt
  · subst hi
    obtain rfl := Host.Outcome.next.inj ((exec_halt s).symm.trans h)
    exact ⟨fun r _ => (flushBoth_reg _ r).trans (State.reg_setHalted s true r), rfl, fun hne => absurd rfl hne,
      rfl, rfl, rfl⟩
  · have k := exec_keepsAllBut hi h
    exact ⟨k.reg, k.microLog, fun _ => ⟨k.halted, k.ic⟩, by rw [k.ic], by rw [k.ic], by rw [k.ic]⟩

/-! ## Where the program counter goes (R25, R26) -/

/-- R180 to R184: a conditional jump sets `PC` to its target or does nothing. -/
theorem jumpIf_cases {cond : Bool} {x : Field12} {s t : State} (h : jumpIf cond x s = .next t) :
    (cond = false ∧ t = s) ∨ (cond = true ∧ t = s.setPc (jumpTarget x)) := by
  obtain rfl := Host.Outcome.next.inj h
  cases cond
  · exact .inl ⟨rfl, rfl⟩
  · exact .inr ⟨rfl, rfl⟩

theorem jumpIf_pc {cond : Bool} {x : Field12} {s t : State} (h : jumpIf cond x s = .next t) :
    t.pc = s.pc ∨ t.pc = jumpTarget x := by
  obtain ⟨-, rfl⟩ | ⟨-, rfl⟩ := jumpIf_cases h
  · exact .inl rfl
  · exact .inr rfl

/-- R25: execute leaves `PC` alone, sets it to a jump target, or pops it (RETN). -/
theorem exec_pc_cases {i : Instr} {s t : State} (h : exec i s = .next t) :
    t.pc = s.pc ∨ (∃ x, t.pc = jumpTarget x) ∨ i = .retn := by
  have frame := (executeWritesOnlyNamedRegisters i s t h).1 .pc
  cases i with
  | jpos x | jzer x | jneg x | jnze x => exact (jumpIf_pc h).imp_right fun ht => .inl ⟨x, ht⟩
  | jump x | call x => exact .inr (.inl ⟨x, (Host.Outcome.next.inj h) ▸ rfl⟩)
  | retn => exact .inr (.inr rfl)
  | _ => exact .inl (frame (by simp [writtenRegisters]))

/-- R140, R145: the step of a running engine whose program counter is in range. -/
theorem step_of_running {s : State} (hrun : s.halted = false) (hpc : s.pc.toNat < 4096) :
    step s = runFetched (fetch s) := by
  rw [step, hrun, if_neg Bool.false_ne_true, if_pos ((inRange_iff _).2 hpc)]

/-- R143: the fetched word is an instruction, which runs, or unknown, and then only a notice is logged (R211). -/
theorem runFetched_cases {s t : State} (h : runFetched s = .next t) :
    (∃ i, decode s.ir = .ok i ∧ exec i s = .next t) ∨
    ∃ w, decode s.ir = .error (.unknown w) ∧ t = logUnknown s w := by
  unfold runFetched at h
  split at h
  next i hi => exact .inl ⟨i, hi, h⟩
  next w hw => exact .inr ⟨w, hw, (Host.Outcome.next.inj h).symm⟩

/-- R26: a fetch moves `PC` out of range only at 4095. -/
theorem addWord_one_out_of_range {p : Word} (hp : p.toNat < 4096) (h : 4096 ≤ (addWord p 1).toNat) :
    p = 4095 ∧ addWord p 1 = 4096 := by
  rw [addWord_toNat] at h
  change 4096 ≤ (p.toNat + 1) % 65536 at h
  have hpc : p = 4095 := BitVec.eq_of_toNat_eq (show p.toNat = 4095 by omega)
  exact ⟨hpc, hpc ▸ rfl⟩

/-- R25: a jump target is in range. -/
theorem jumpTarget_lt (x : Field12) : (jumpTarget x).toNat < 4096 :=
  (jumpTarget_toNat x).trans_lt x.isLt

/-- Settles O26: after the fetch `PC` stays, becomes a jump target, which is in range, or is popped by RETN. -/
theorem pcLeavesRangeInTwoWays : Obligations.PcLeavesRangeInTwoWays := by
  intro s t hrun hpc hstep hout
  have at_fetched (ht : t.pc = (fetch s).pc) : s.pc = 4095 ∧ t.pc = 4096 := by
    rw [fetch_pc] at ht
    rw [ht] at hout ⊢
    exact addWord_one_out_of_range hpc hout
  rw [step_of_running hrun hpc] at hstep
  obtain ⟨i, hi, hexec⟩ | ⟨w, -, rfl⟩ := runFetched_cases hstep
  · obtain ht | ⟨x, ht⟩ | rfl := exec_pc_cases hexec
    · exact .inl (at_fetched ht)
    · rw [ht] at hout
      exact absurd (jumpTarget_lt x) (Nat.not_lt.2 hout)
    · exact .inr hi
  · exact .inl (at_fetched rfl)

end Sys2Proof.Machine

namespace Sys2Proof.Machine

/-! ## The invariant (R31 to R34, R83): every instruction and every step keeps it -/

/-- R140, R141, R145: what a step can do. -/
theorem step_cases {s t : State} (h : step s = .next t) :
    (s.halted = true ∧ t = s) ∨
    (s.halted = false ∧ s.pc.toNat < 4096 ∧ runFetched (fetch s) = .next t) ∨
    (s.halted = false ∧ 4096 ≤ s.pc.toNat ∧ t = haltPcOutOfRange s) := by
  cases hh : s.halted with
  | true =>
    rw [step, if_pos hh] at h
    exact .inl ⟨rfl, (Host.Outcome.next.inj h).symm⟩
  | false =>
    by_cases hpc : s.pc.toNat < 4096
    · exact .inr (.inl ⟨rfl, hpc, step_of_running hh hpc ▸ h⟩)
    · rw [step, hh, if_neg Bool.false_ne_true, if_neg (mt (inRange_iff _).1 hpc)] at h
      exact .inr (.inr ⟨rfl, Nat.not_lt.1 hpc, (Host.Outcome.next.inj h).symm⟩)

/-- R143: each arm is made of operations that keep `State.DataInv`. -/
theorem exec_dataInv {i : Instr} {s t : State} (hs : s.DataInv) (h : exec i s = .next t) : t.DataInv := by
  cases i with
  | jpos _ | jzer _ | jneg _ | jnze _ =>
    obtain ⟨-, rfl⟩ | ⟨-, rfl⟩ := jumpIf_cases h
    · exact hs
    · exact hs.setPc _
  | lodd _ | addd _ | subd _ | lodl _ | addl _ | subl _ => exact Host.Outcome.next.inj h ▸ (hs.dRead _).setAc _
  | stod _ | stol _ => exact Host.Outcome.next.inj h ▸ hs.dWrite _ _
  | loco _ => exact Host.Outcome.next.inj h ▸ hs.setAc _
  | jump _ => exact Host.Outcome.next.inj h ▸ hs.setPc _
  | call _ => exact Host.Outcome.next.inj h ▸ (hs.pushWord _).setPc _
  | retn => exact Host.Outcome.next.inj h ▸ hs.popWord.setPc _
  | push => exact Host.Outcome.next.inj h ▸ hs.pushWord _
  | pshi => exact Host.Outcome.next.inj h ▸ (hs.dRead _).pushWord _
  | pop => exact Host.Outcome.next.inj h ▸ hs.popWord.setAc _
  | popi => exact Host.Outcome.next.inj h ▸ ((hs.dRead _).dWrite _ _).setSp _
  | swap => exact Host.Outcome.next.inj h ▸ (hs.setAc _).setSp _
  | insp _ | desp _ => exact Host.Outcome.next.inj h ▸ hs.setSp _
  | halt => exact Host.Outcome.next.inj h ▸ (hs.setHalted true).flushBoth

theorem runFetched_dataInv {s t : State} (hs : s.DataInv) (h : runFetched s = .next t) : t.DataInv := by
  obtain ⟨i, -, hexec⟩ | ⟨w, -, rfl⟩ := runFetched_cases h
  · exact exec_dataInv hs hexec
  · exact hs.setMicroLog _

/-- R23: execute leaves `IR` alone. -/
theorem runFetched_ir {s t : State} (h : runFetched s = .next t) : t.ir = s.ir := by
  obtain ⟨i, -, hexec⟩ | ⟨w, -, rfl⟩ := runFetched_cases h
  · exact (executeWritesOnlyNamedRegisters i s t hexec).1 .ir (by cases i <;> simp [writtenRegisters])
  · rfl

/-- R210, R261: a fetched `0xFFFF` is HALT, which stops the engine. -/
theorem runFetched_haltWord {s t : State} (h : runFetched s = .next t) (hir : s.ir = 0xFFFF) : t.halted = true := by
  have hdec : decode s.ir = .ok .halt := hir ▸ (by decide)
  obtain ⟨i, hi, hexec⟩ | ⟨w, hw, -⟩ := runFetched_cases h
  · obtain rfl := Except.ok.inj (hdec.symm.trans hi)
    exact Host.Outcome.next.inj hexec ▸ rfl
  · exact nomatch hdec.symm.trans hw

/-- Settles O21: fetch and every arm keep `State.DataInv`, and a fetched `0xFFFF` halts at once. -/
theorem stepKeepsInvariant : Obligations.StepKeepsInvariant := by
  intro s t hs hstep
  obtain ⟨-, rfl⟩ | ⟨-, -, hrun⟩ | ⟨-, -, rfl⟩ := step_cases hstep
  · exact hs
  · exact ⟨runFetched_dataInv hs.toDataInv.fetch hrun,
      fun hir => runFetched_haltWord hrun (runFetched_ir hrun ▸ hir)⟩
  · exact ⟨(hs.toDataInv.setHalted true).setMicroLog _, fun _ => rfl⟩

theorem State.Inv.resetWith {cfg : Config} (h : cfg.wellFormed = true) : (State.resetWith cfg).Inv :=
  ⟨.resetWith h, fun hir => absurd (show (0 : Word) = 0xFFFF from hir) (by decide)⟩

/-- R301: `reset()` recreates caches of the sizes the machine has, which R31 admits. -/
theorem State.Inv.hostReset {s : State} (hs : s.Inv) : (hostReset s).Inv :=
  .resetWith (State.config_wellFormed hs.icShaped hs.dcShaped)

/-- R302: the words are copied behind empty caches, which are coherent with any Memory. -/
theorem State.Inv.loadProgram {s : State} (hs : s.Inv) (words : List Word) : (loadProgram words s).Inv := by
  have h := hs.hostReset
  exact ⟨⟨copyWords_wf h.memoryCanonical _ _, h.icShaped, h.dcShaped, Coherent.empty _ _, h.icCounted,
    h.dcCounted, h.unusedZero, h.mbrIsIr⟩, h.haltWordHalts⟩

/-- R307: each of the host's moves keeps the invariant. -/
theorem HostOp.apply_inv {op : HostOp} {s t : State} (hs : s.Inv) (h : op.apply s = .next t) : t.Inv := by
  cases op with
  | compile _ | observe => exact Host.Outcome.next.inj h ▸ hs
  | loadProgram words => exact Host.Outcome.next.inj h ▸ hs.loadProgram words
  | reset => exact Host.Outcome.next.inj h ▸ hs.hostReset
  | step => exact stepKeepsInvariant s t hs h

/-- Settles O22, by induction on how the state is reached. -/
theorem reachableStatesMeetInvariant : Obligations.ReachableStatesMeetInvariant := by
  intro s hs
  induction hs with
  | powerOn cfg hcfg => exact .resetWith hcfg
  | move op s t _ hmove ih => exact HostOp.apply_inv ih hmove

/-! ## The mapping of addresses to lines (R66) -/

/-- R14: the bits of a word as a number. -/
theorem extractLsb'_toNat_div_mod (a : Word) (i n : Nat) : (a.extractLsb' i n).toNat = a.toNat / 2 ^ i % 2 ^ n := by
  rw [BitVec.extractLsb'_toNat, Nat.shiftRight_eq_div_pow]

theorem extractLsb'_eq_iff (a b : Word) (i n : Nat) :
    a.extractLsb' i n = b.extractLsb' i n ↔ a.toNat / 2 ^ i % 2 ^ n = b.toNat / 2 ^ i % 2 ^ n := by
  rw [← BitVec.toNat_inj, extractLsb'_toNat_div_mod, extractLsb'_toNat_div_mod]

/-- R66: in a cache of sound shape the line tested for `a` exists. -/
theorem Cache.Shaped.getElem?_lineIndex {c : Cache} (h : c.Shaped) (a : Nat) :
    c.lines[c.lineIndex a]? = some (c.lineAt a) := by
  rw [h.lineAt_eq a, List.getElem?_eq_getElem]

/-- Settles O10: the hit test is read off the one line; the bit fields are quotients and remainders by powers of 2. -/
theorem cacheMappingIsDirect : Obligations.CacheMappingIsDirect := by
  refine ⟨fun c a => ⟨rfl, rfl, rfl⟩, fun c a hc => ?_, fun c a b hK hN => ?_⟩
  · rw [c.isHit_iff, hc.getElem?_lineIndex]
    simp
  · have ha := a.isLt
    have hb := b.isLt
    simp only [extractLsb'_eq_iff, extractLsb'_toNat_div_mod, Cache.offset, Cache.lineIndex, Cache.tagOf,
      Cache.blockBase, hK, hN]
    refine ⟨?_, rfl, ?_, ?_, Iff.rfl, ?_⟩ <;> omega

/-! ## Reads and writes of one cache (R67 to R69) -/

/-- R31: a line of a cache of sound shape holds a word at the offset of `a`. -/
theorem Cache.Shaped.getElem?_offset {c : Cache} (h : c.Shaped) (a : Nat) :
    (c.lineAt a).block[c.offset a]? = some (c.wordAt a) := by
  have ho : c.offset a < (c.lineAt a).block.length := (h.offset_lt a).trans_eq (h.blocks _ (h.lineAt_mem a)).symm
  rw [Cache.wordAt, List.getD_eq_getElem _ _ ho, List.getElem?_eq_getElem ho]

/-- Settles O11: the two cases of `Cache.access_cases`, with the word each returns. -/
theorem cacheReadHitAndMiss : Obligations.CacheReadHitAndMiss := by
  intro c m a hc
  refine ⟨fun hit => ⟨?_, c.access_of_hit m a hit⟩, fun hmiss => ⟨hc.read_of_miss m hmiss, ?_⟩⟩
  · rw [c.read_of_hit m hit, hc.getElem?_lineIndex, Option.bind_some, hc.getElem?_offset]
  · exact ⟨_, c.access_of_miss m a hmiss, rfl, rfl, rfl, c.fetchBlock_length m a, fun j hj => c.fetchBlock_get m a hj⟩

/-- R67: an access leaves `dirty` of the line it goes to. -/
theorem Cache.Shaped.access_lineAt_dirty {c : Cache} (h : c.Shaped) (m : Memory) (a : Nat) :
    ((c.access m a).lineAt a).dirty = (c.lineAt a).dirty := by
  have hs := h.access m a
  rw [hs.clean _ (hs.lineAt_mem a), h.clean _ (h.lineAt_mem a)]

/-- R67 to R69: the words of the line after an access, the old ones on a hit and those of Memory on a miss. -/
theorem Cache.Shaped.access_lineAt_block {c : Cache} (h : c.Shaped) (m : Memory) (a : Nat) {j : Nat}
    (hj : j < c.blockSize) :
    ((c.access m a).lineAt a).block[j]? =
      if c.isHit a then (c.lineAt a).block[j]? else some (memRead m (c.blockBase a + j)) := by
  cases hit : c.isHit a with
  | true => rw [c.access_hit_lineAt m hit, if_pos rfl]
  | false => rw [h.access_miss_lineAt m hit, if_neg Bool.false_ne_true, c.fetchBlock_get m a hj]

/-- R68, R69, R89: an access counts and logs one event, of the kind the test gives. -/
theorem Cache.access_counts (c : Cache) (m : Memory) (a : Nat) :
    (c.access m a).hitCount = c.hitCount + (if c.isHit a then 1 else 0) ∧
    (c.access m a).missCount = c.missCount + (if c.isHit a then 0 else 1) ∧
    (c.access m a).eventLog = c.eventLog ++ [if c.isHit a then .hit a else .miss a] := by
  obtain ⟨hit, e⟩ | ⟨hmiss, e⟩ := c.access_cases m a
  · rw [e, hit]; exact ⟨rfl, rfl, rfl⟩
  · rw [e, hmiss]; exact ⟨rfl, rfl, rfl⟩

/-- R69: setting a word changes no line but the one its address maps to. -/
theorem Cache.setWordAt_other (c : Cache) {a i : Nat} (v : Word) (hi : i ≠ c.lineIndex a) :
    (c.setWordAt a v).lines[i]? = c.lines[i]? :=
  List.getElem?_set_ne hi.symm

/-- Settles O12: a write is an access (allocate on a miss), then one word of the line and one of Memory set. -/
theorem cacheWriteReachesLineAndMemory : Obligations.CacheWriteReachesLineAndMemory := by
  intro c m a v hc hm
  have hs := hc.access m a
  have hline := hs.setWordAt_lineAt a v
  refine ⟨fun ha => memRead_memWrite_self hm ha v, fun ha => if_neg (Nat.not_lt.2 ha),
    fun b hb => memRead_memWrite_of_ne hm hb v, hs.setWordAt_isHit v (hc.access_isHit m a), hs.setWordAt_wordAt a v,
    ?dirty, c.access_blockSize m a, ?size, ?lines, ?words, c.access_counts m a⟩
  case dirty =>
    rw [Cache.write, hline]
    exact hc.access_lineAt_dirty m a
  case size => simp [Cache.write]
  case lines =>
    intro i hi
    rw [Cache.write, Cache.setWordAt_other _ _ (by simpa using hi), c.access_other m a hi]
  case words =>
    intro j hj hne
    rw [Cache.write, hline]
    simp only [Cache.access_offset]
    rw [List.getElem?_set_ne hne.symm]
    exact hc.access_lineAt_block m a hj

/-! ## Resident blocks (R72, R85, R88) -/

/-- R66: addresses of one line and one tag hit together. -/
theorem Cache.isHit_congr {c : Cache} {a b : Nat} (hline : c.lineIndex a = c.lineIndex b)
    (htag : c.tagOf a = c.tagOf b) : c.isHit a = c.isHit b := by
  rw [Cache.isHit, Cache.isHit, Cache.lineAt, Cache.lineAt, hline, htag]

/-- R66: a line holds one block, so two addresses of one line that both hit have one tag. -/
theorem Cache.tagOf_eq_of_isHit {c : Cache} {a b : Nat} (hline : c.lineIndex a = c.lineIndex b)
    (ha : c.isHit a = true) (hb : c.isHit b = true) : c.tagOf a = c.tagOf b := by
  have hat : c.lineAt a = c.lineAt b := by rw [Cache.lineAt, Cache.lineAt, hline]
  rw [← ((c.isHit_iff a).1 ha).2, ← ((c.isHit_iff b).1 hb).2, hat]

/-- R66: a hit depends on the line at the index alone. -/
theorem Cache.isHit_of_line {c d : Cache} {a : Nat} (hi : d.lineIndex a = c.lineIndex a) (ht : d.tagOf a = c.tagOf a)
    (hb : d.blockSize = c.blockSize) (hl : d.lines[c.lineIndex a]? = c.lines[c.lineIndex a]?) :
    d.isHit a = c.isHit a := by
  simp only [Cache.isHit, Cache.lineAt, List.getD_eq_getElem?_getD, hi, ht, hb, hl]

/-- R67, R88: an access evicts only an address of the same line and another tag. -/
theorem Cache.Shaped.access_keeps_isHit {c : Cache} (h : c.Shaped) (m : Memory) {a b : Nat}
    (hb : c.isHit b = true) (hab : c.lineIndex a = c.lineIndex b → c.tagOf a = c.tagOf b) :
    (c.access m a).isHit b = true := by
  by_cases hline : c.lineIndex a = c.lineIndex b
  · rw [← Cache.isHit_congr (by simpa using hline) (by simpa using hab hline)]
    exact h.access_isHit m a
  · rw [Cache.isHit_of_line (by simp) (by simp) (by simp) (c.access_other m a (Ne.symm hline)), hb]

/-- R69: setting a word evicts nothing. -/
theorem Cache.Shaped.setWordAt_keeps_isHit {c : Cache} (h : c.Shaped) (a : Nat) (v : Word) {b : Nat}
    (hb : c.isHit b = true) : (c.setWordAt a v).isHit b = true := by
  by_cases hline : c.lineIndex b = c.lineIndex a
  · have hat : c.lineAt b = c.lineAt a := by rw [Cache.lineAt, Cache.lineAt, hline]
    have hat' : (c.setWordAt a v).lineAt b = (c.setWordAt a v).lineAt a := by
      rw [Cache.lineAt, Cache.lineAt, Cache.setWordAt_lineIndex, Cache.setWordAt_lineIndex, hline]
    rw [Cache.isHit_iff, hat', h.setWordAt_lineAt, Cache.setWordAt_tagOf, ← hat]
    exact (c.isHit_iff b).1 hb
  · rw [Cache.isHit_of_line (by simp) (by simp) (by simp) (c.setWordAt_other v hline), hb]

/-! The calls of R88: each keeps the shape and the sizes, makes its own address hit, and evicts only an address of the
same line and another tag. -/

section Calls

variable {c : Cache} (m : Memory)

theorem Cache.Shaped.apply (h : c.Shaped) (k : CacheCall) : (k.apply (c, m)).1.Shaped := by
  cases k with
  | read a => exact h.access m a
  | write a v => exact (h.access m a).setWordAt a v

theorem CacheCall.apply_lineIndex (k : CacheCall) (a : Nat) : (k.apply (c, m)).1.lineIndex a = c.lineIndex a := by
  cases k with
  | read b => exact c.access_lineIndex m b a
  | write b v => exact ((c.access m b).setWordAt_lineIndex b v a).trans (c.access_lineIndex m b a)

theorem CacheCall.apply_tagOf (k : CacheCall) (a : Nat) : (k.apply (c, m)).1.tagOf a = c.tagOf a := by
  cases k with
  | read b => exact c.access_tagOf m b a
  | write b v => exact ((c.access m b).setWordAt_tagOf b v a).trans (c.access_tagOf m b a)

theorem Cache.Shaped.apply_isHit_self (h : c.Shaped) (k : CacheCall) :
    (k.apply (c, m)).1.isHit k.address = true := by
  cases k with
  | read a => exact h.access_isHit m a
  | write a v => exact (h.access m a).setWordAt_isHit v (h.access_isHit m a)

theorem Cache.Shaped.apply_keeps_isHit (h : c.Shaped) {a : Nat} (ha : c.isHit a = true) {k : CacheCall}
    (hk : c.lineIndex k.address = c.lineIndex a → c.tagOf k.address = c.tagOf a) :
    (k.apply (c, m)).1.isHit a = true := by
  cases k with
  | read b => exact h.access_keeps_isHit m ha hk
  | write b v => exact (h.access m b).setWordAt_keeps_isHit b v (h.access_keeps_isHit m ha hk)

end Calls

/-- R88: a resident address stays resident over any calls of which none evicts it. -/
theorem Cache.Shaped.foldl_keeps_isHit {c : Cache} (h : c.Shaped) (m : Memory) {a : Nat} (ha : c.isHit a = true)
    (calls : List CacheCall)
    (hk : ∀ k ∈ calls, c.lineIndex k.address = c.lineIndex a → c.tagOf k.address = c.tagOf a) :
    (calls.foldl CacheCall.apply (c, m)).1.isHit a = true := by
  induction calls generalizing c m with
  | nil => exact ha
  | cons k ks ih =>
    obtain ⟨hhead, htail⟩ := List.forall_mem_cons.1 hk
    refine ih (h.apply m k) _ (h.apply_keeps_isHit m ha hhead) fun l hl => ?_
    simpa only [CacheCall.apply_lineIndex, CacheCall.apply_tagOf] using htail l hl

/-- Settles O13: the first call makes its address hit, and none of the calls between evicts it. -/
theorem secondAccessHitsUnlessEvicted : Obligations.SecondAccessHitsUnlessEvicted := by
  refine ⟨Cache.empty_isHit, fun c m first between hc hk => ?_⟩
  refine (hc.apply m first).foldl_keeps_isHit _ (hc.apply_isHit_self m first) between fun k hmem => ?_
  simpa only [CacheCall.apply_lineIndex, CacheCall.apply_tagOf] using hk k hmem

/-- R144 (d), R210: execute leaves the instruction cache alone, but for the flush of HALT. -/
theorem exec_ic_cases {i : Instr} {s t : State} (h : exec i s = .next t) : t.ic = s.ic ∨ t.ic = s.ic.flushAll := by
  by_cases hi : i = .halt
  · subst hi
    exact .inr (Host.Outcome.next.inj h ▸ rfl)
  · exact .inl (exec_keepsAllBut hi h).ic

theorem Cache.flushAll_isHit (c : Cache) (a : Nat) : c.flushAll.isHit a = c.isHit a := rfl

theorem Cache.flushAll_wordAt (c : Cache) (a : Nat) : c.flushAll.wordAt a = c.wordAt a := rfl

/-- Settles O14: no store touches the lines of the instruction cache, and a hit does not consult Memory; the data side
stays coherent. -/
theorem storesDoNotReachResidentFetches : Obligations.StoresDoNotReachResidentFetches := by
  intro i s t hs h
  have ht := exec_dataInv hs.toDataInv h
  refine ⟨fun a ha => ?_, dRead_value t ht.dcShaped ht.dcCoherent⟩
  have hsame : t.ic.isHit a = s.ic.isHit a ∧ t.ic.wordAt a = s.ic.wordAt a := by
    obtain e | e := exec_ic_cases h
    · exact e ▸ ⟨rfl, rfl⟩
    · exact e ▸ ⟨s.ic.flushAll_isHit a, s.ic.flushAll_wordAt a⟩
  obtain ⟨hhit, hword⟩ := hsame
  have ha' : t.ic.isHit a = true := hhit.trans ha
  exact ⟨ha', by rw [Cache.read_of_hit _ _ ha', Cache.read_of_hit _ _ ha, hword]⟩

/-- Settles O15: after the fetch from `b` its block fills the one line, so `a` misses and is read from Memory. -/
theorem evictionMakesFetchReadMemory : Obligations.EvictionMakesFetchReadMemory := by
  intro s a b hs hline htag
  have hb : (s.ic.access s.memory b.toNat).isHit b.toNat = true := hs.access_isHit _ _
  have ha : (s.ic.access s.memory b.toNat).isHit a.toNat = false := by
    rw [← Bool.not_eq_true]
    intro ha
    have := Cache.tagOf_eq_of_isHit (by simpa using hline) hb ha
    exact htag (by simpa using this)
  exact ⟨ha, (hs.access _ _).read_of_miss s.memory ha⟩

/-! ## What execute does to Memory (R77) -/

/-- R24: the address of a push depends on `SP` alone. -/
theorem pushAddress_congr {s t : State} (h : t.sp = s.sp) : pushAddress t = pushAddress s := by
  rw [pushAddress, h, pushAddress]

theorem pushWord_memory (s : State) (v : Word) :
    (pushWord s v).memory = memWrite s.memory (pushAddress s).toNat v := by
  rw [pushWord_state, dWrite_memory, State.setSp_memory]

/-- R77: execute stores one word at its target, or leaves Memory alone. -/
theorem exec_memory_cases {i : Instr} {s t : State} (h : exec i s = .next t) :
    (∃ a v, storeTarget i s = some a ∧ t.memory = memWrite s.memory a.toNat v) ∨
    (storeTarget i s = none ∧ t.memory = s.memory) := by
  cases i with
  | jpos _ | jzer _ | jneg _ | jnze _ =>
    obtain ⟨-, rfl⟩ | ⟨-, rfl⟩ := jumpIf_cases h
    · exact .inr ⟨rfl, rfl⟩
    · exact .inr ⟨rfl, rfl⟩
  | stod _ | stol _ => exact .inl ⟨_, s.ac, rfl, Host.Outcome.next.inj h ▸ dWrite_memory s _ _⟩
  | call _ => exact .inl ⟨_, s.pc, rfl, Host.Outcome.next.inj h ▸ pushWord_memory s _⟩
  | push => exact .inl ⟨_, s.ac, rfl, Host.Outcome.next.inj h ▸ pushWord_memory s _⟩
  | pshi =>
    refine .inl ⟨_, (dRead s s.ac).1, rfl, Host.Outcome.next.inj h ▸ ?_⟩
    rw [pushWord_memory, dRead_memory, pushAddress_congr (dRead_sp s s.ac)]
  | popi =>
    refine .inl ⟨_, (dRead s s.sp).1, rfl, Host.Outcome.next.inj h ▸ ?_⟩
    rw [State.setSp_memory, dWrite_memory, dRead_memory, dRead_ac]
  | lodd _ | addd _ | subd _ | lodl _ | addl _ | subl _ | pop | retn =>
    exact .inr ⟨rfl, Host.Outcome.next.inj h ▸ dRead_memory _ _⟩
  | loco _ | jump _ | insp _ | desp _ | swap | halt => exact .inr ⟨rfl, Host.Outcome.next.inj h ▸ rfl⟩

/-- Settles O28: a store of one word changes no byte outside it. -/
theorem executeStoresOnlyAtItsTarget : Obligations.ExecuteStoresOnlyAtItsTarget := by
  intro i s t hm h
  obtain ⟨a, v, htarget, hmem⟩ | ⟨htarget, hmem⟩ := exec_memory_cases h
  · refine ⟨fun b hb c hc => ?_, fun hnone => absurd (htarget.symm.trans hnone) (Option.some_ne_none a)⟩
    obtain rfl := Option.some.inj (htarget.symm.trans hb)
    rw [hmem, readByte_memWrite hm _ _ hc]
  · exact ⟨fun b hb => absurd (hb.symm.trans htarget) (Option.some_ne_none b), fun _ => hmem⟩

/-! ## Counting and logging accesses (R34, R89) -/

/-- `d` is `c` after accesses to the addresses `as`: each counted once and logged once, in this order. Flush entries,
which report no address, may stand between. -/
structure Cache.Accessed (c : Cache) (as : List Nat) (d : Cache) : Prop where
  log    : ∃ es, d.eventLog = c.eventLog ++ es ∧ es.filterMap CacheEvent.address = as
  total  : d.hitCount + d.missCount = c.hitCount + c.missCount + as.length
  hits   : c.hitCount ≤ d.hitCount
  misses : c.missCount ≤ d.missCount

namespace Cache.Accessed

variable {c d : Cache} {as : List Nat}

theorem refl (c : Cache) : c.Accessed [] c := ⟨⟨[], by simp, rfl⟩, rfl, le_rfl, le_rfl⟩

/-- R68, R69, R89: one access. -/
theorem of_access (c : Cache) (m : Memory) (a : Nat) : c.Accessed [a] (c.access m a) := by
  obtain ⟨-, e⟩ | ⟨-, e⟩ := c.access_cases m a
  · exact e ▸ ⟨⟨[.hit a], rfl, rfl⟩, Nat.add_right_comm _ _ _, Nat.le_succ _, le_rfl⟩
  · exact e ▸ ⟨⟨[.miss a], rfl, rfl⟩, rfl, le_rfl, Nat.le_succ _⟩

/-- R70: a flush is no access. -/
theorem of_flushAll (c : Cache) : c.Accessed [] c.flushAll := ⟨⟨[.flush], rfl, rfl⟩, rfl, le_rfl, le_rfl⟩

theorem trans {e : Cache} {bs : List Nat} (h : c.Accessed as d) (k : d.Accessed bs e) :
    c.Accessed (as ++ bs) e := by
  obtain ⟨es, hlog, haddr⟩ := h.log
  obtain ⟨fs, klog, kaddr⟩ := k.log
  refine ⟨⟨es ++ fs, by simp [hlog, klog], by simp [haddr, kaddr]⟩, ?_, h.hits.trans k.hits, h.misses.trans k.misses⟩
  rw [k.total, h.total, List.length_append, Nat.add_assoc]

/-- R69: setting a word is no further access. -/
theorem setWordAt (h : c.Accessed as d) (a : Nat) (v : Word) : c.Accessed as (d.setWordAt a v) :=
  ⟨h.log, h.total, h.hits, h.misses⟩

end Cache.Accessed

/-- R74, R75: of the addresses of some data accesses, those that reach the data cache. -/
def reachedAddresses (as : List Word) : List Nat := (as.filter inRange).map BitVec.toNat

theorem reachedAddresses_append_of_inRange (as : List Word) {a : Word} (ha : inRange a = true) :
    reachedAddresses (as ++ [a]) = reachedAddresses as ++ [a.toNat] := by
  simp [reachedAddresses, ha]

theorem reachedAddresses_append_of_out (as : List Word) {a : Word} (ha : inRange a = false) :
    reachedAddresses (as ++ [a]) = reachedAddresses as := by
  simp [reachedAddresses, ha]

/-- `t` is reached from `s` by data accesses to the addresses `as`, in this order. -/
def State.DataAccessed (s : State) (as : List Word) (t : State) : Prop := s.dc.Accessed (reachedAddresses as) t.dc

namespace State.DataAccessed

variable {s t : State} {as : List Word}

theorem refl (s : State) : s.DataAccessed [] s := Cache.Accessed.refl s.dc

theorem dRead (h : s.DataAccessed as t) (a : Word) : s.DataAccessed (as ++ [a]) (dRead t a).2 := by
  unfold State.DataAccessed at h ⊢
  cases ha : inRange a
  · rw [dRead_of_out t ha, reachedAddresses_append_of_out as ha]
    exact h
  · rw [dRead_of_inRange t ha, reachedAddresses_append_of_inRange as ha]
    exact h.trans (.of_access _ _ _)

theorem dWrite (h : s.DataAccessed as t) (a v : Word) : s.DataAccessed (as ++ [a]) (dWrite t a v) := by
  unfold State.DataAccessed at h ⊢
  cases ha : inRange a
  · rw [dWrite_of_out t ha, reachedAddresses_append_of_out as ha]
    exact h
  · rw [dWrite_of_inRange t ha, reachedAddresses_append_of_inRange as ha]
    exact (h.trans (.of_access _ _ _)).setWordAt _ _

/-- R24: a push made before `SP` is written accesses the slot below the old `SP`. -/
theorem pushWord (h : s.DataAccessed as t) (hsp : t.sp = s.sp) (v : Word) :
    s.DataAccessed (as ++ [pushAddress s]) (pushWord t v) := by
  rw [pushWord_state, ← pushAddress_congr hsp]
  exact State.DataAccessed.dWrite (t := t.setSp (pushAddress t)) h (pushAddress t) v

end State.DataAccessed

/-- R77, R79: execute accesses data at the addresses its row gives, in their order, and nowhere else. -/
theorem exec_dataAccessed {i : Instr} {s t : State} (h : exec i s = .next t) :
    s.DataAccessed (dataAccesses i s) t := by
  have k := State.DataAccessed.refl s
  cases i with
  | jpos _ | jzer _ | jneg _ | jnze _ =>
    obtain ⟨-, rfl⟩ | ⟨-, rfl⟩ := jumpIf_cases h
    · exact k
    · exact k
  | lodd _ | addd _ | subd _ | lodl _ | addl _ | subl _ | pop | retn => exact Host.Outcome.next.inj h ▸ k.dRead _
  | stod _ | stol _ => exact Host.Outcome.next.inj h ▸ k.dWrite _ _
  | call _ | push => exact Host.Outcome.next.inj h ▸ k.pushWord rfl _
  | pshi => exact Host.Outcome.next.inj h ▸ (k.dRead s.ac).pushWord (dRead_sp s s.ac) _
  | popi =>
    have hac : (dRead s s.sp).2.ac = s.ac := dRead_ac s s.sp
    exact Host.Outcome.next.inj h ▸ hac ▸ (k.dRead s.sp).dWrite _ _
  | loco _ | jump _ | insp _ | desp _ | swap => exact Host.Outcome.next.inj h ▸ k
  | halt => exact Host.Outcome.next.inj h ▸ Cache.Accessed.of_flushAll s.dc

/-- Settles O29: the log and the counters follow the accesses `exec_dataAccessed` lists. -/
theorem dataAccessesAreCountedInOrder : Obligations.DataAccessesAreCountedInOrder := by
  intro i s t h
  have k := exec_dataAccessed h
  exact ⟨k.log, k.total.trans (by rw [reachedAddresses, List.length_map])⟩

/-- R89: execute fetches nothing, and a counter of the data cache never falls. -/
theorem runFetched_accessed {s t : State} (h : runFetched s = .next t) :
    s.ic.Accessed [] t.ic ∧ ∃ as, s.dc.Accessed as t.dc := by
  obtain ⟨i, -, hexec⟩ | ⟨w, -, rfl⟩ := runFetched_cases h
  · refine ⟨?_, _, exec_dataAccessed hexec⟩
    obtain e | e := exec_ic_cases hexec
    · exact e ▸ .refl _
    · exact e ▸ .of_flushAll _
  · exact ⟨.refl _, [], .refl _⟩

/-- Settles O30: a step that fetches makes one access to the instruction cache, any other step none. -/
theorem instructionCacheCountsFetches : Obligations.InstructionCacheCountsFetches := by
  intro s t hstep
  have haccessed : s.ic.Accessed (if s.halted = false ∧ s.pc.toNat < 4096 then [s.pc.toNat] else []) t.ic ∧
      ∃ as, s.dc.Accessed as t.dc := by
    obtain ⟨hhalted, rfl⟩ | ⟨hrun, hpc, hfetched⟩ | ⟨-, hpc, rfl⟩ := step_cases hstep
    · rw [if_neg (by simp [hhalted])]
      exact ⟨.refl _, [], .refl _⟩
    · rw [if_pos ⟨hrun, hpc⟩]
      obtain ⟨hic, hdc⟩ := runFetched_accessed hfetched
      exact ⟨(Cache.Accessed.of_access s.ic s.memory s.pc.toNat).trans hic, hdc⟩
    · rw [if_neg (by omega)]
      exact ⟨.refl _, [], .refl _⟩
  obtain ⟨hi, as, hd⟩ := haccessed
  refine ⟨hi.total.trans ?_, hi.hits, hi.misses, hd.hits, hd.misses⟩
  split <;> rfl

end Sys2Proof.Machine

namespace Sys2Proof

/-- R118: the extended group rejects a word as unknown, and the word it names is the word itself. -/
theorem decodeExtended_unknown {w v : Word} (h : decodeExtended w = .error (.unknown v)) : v = w := by
  unfold decodeExtended at h
  split_ifs at h
  injection h with h
  exact (DecodeReject.unknown.inj h).symm

/-- R115, R118: a word that decode rejects is the one it names. -/
theorem decode_unknown {w v : Word} (h : decode w = .error (.unknown v)) : v = w := by
  unfold decode at h
  split at h
  · cases h
  · exact decodeExtended_unknown h

end Sys2Proof

namespace Sys2Proof.Machine

/-! ## The step (R140 to R147) -/

/-- R144 (e): every instruction answers a next state. -/
theorem exec_next (i : Instr) (s : State) : ∃ t, exec i s = .next t := by
  by_cases hi : i = .halt
  · exact ⟨_, hi ▸ exec_halt s⟩
  · obtain ⟨t, ht, -⟩ := exec_next_keepsAllBut hi s
    exact ⟨t, ht⟩

/-- R143: the arm of an instruction. -/
theorem runFetched_of_ok {s : State} {i : Instr} (h : decode s.ir = .ok i) : runFetched s = exec i s := by
  rw [runFetched, h]

/-- R143, R211: the arm of an unknown word. -/
theorem runFetched_of_unknown {s : State} {w : Word} (h : decode s.ir = .error (.unknown w)) :
    runFetched s = execUnknown w s := by
  rw [runFetched, h]

/-- R143, R144 (e): whatever word was fetched, its arm answers a next state. -/
theorem runFetched_next (s : State) : ∃ t, runFetched s = .next t := by
  match h : decode s.ir with
  | .ok i => exact runFetched_of_ok h ▸ exec_next i s
  | .error (.unknown w) => exact ⟨_, runFetched_of_unknown h⟩

/-- R140: the step of a halted engine. -/
theorem step_of_halted {s : State} (h : s.halted = true) : step s = .next s := by
  rw [step, if_pos h]

/-- R141: the step of a running engine whose program counter is out of range. -/
theorem step_of_pc_out {s : State} (hrun : s.halted = false) (hpc : 4096 ≤ s.pc.toNat) :
    step s = .next (haltPcOutOfRange s) := by
  rw [step, hrun, if_neg Bool.false_ne_true, if_neg (mt (inRange_iff _).1 (Nat.not_lt.2 hpc))]

/-- R142: fetch replaces the trace, so the old one does not matter. -/
theorem fetch_setMicroLog (s : State) (old : List TraceEntry) : fetch (s.setMicroLog old) = fetch s := rfl

/-- Settles O20: of the three kinds of step only the one that fetches runs an arm, and every arm answers a next state. -/
theorem stepAlwaysAnswersNext : Obligations.StepAlwaysAnswersNext := by
  intro s
  cases hhalted : s.halted with
  | true => exact ⟨s, step_of_halted hhalted⟩
  | false =>
    by_cases hpc : s.pc.toNat < 4096
    · exact step_of_running hhalted hpc ▸ runFetched_next (fetch s)
    · exact ⟨_, step_of_pc_out hhalted (Nat.not_lt.1 hpc)⟩

/-- Settles O16. -/
theorem haltedStepChangesNothing : Obligations.HaltedStepChangesNothing :=
  fun _ => step_of_halted

/-- Settles O17: the halting step writes the flag and the trace. -/
theorem outOfRangePcHaltsOnly : Obligations.OutOfRangePcHaltsOnly :=
  fun _ => step_of_pc_out

/-- Settles O18: the post-fetch state is that of `fetch`, and the step is the arm `runFetched` picks there. -/
theorem stepFetchesAndRunsDecoded : Obligations.StepFetchesAndRunsDecoded := by
  intro s hrun hpc
  have hstep : step s = runFetched (fetch s) := step_of_running hrun hpc
  refine ⟨fetch s, ?_, List.cons_ne_nil _ _, fun old => ?_, fun i hi => ?_, fun w hw => ?_⟩
  · rw [← addWord_eq]
    exact fetch_state s
  · have hold : step (s.setMicroLog old) = runFetched (fetch (s.setMicroLog old)) := step_of_running hrun hpc
    rw [hstep, ← fetch_setMicroLog s old]
    exact hold
  · rw [hstep, runFetched_of_ok hi]
  · rw [hstep, runFetched_of_unknown hw]
    exact ⟨decode_unknown hw, rfl⟩

end Sys2Proof.Machine

namespace Sys2Proof

/-! ## Words written as a base opcode plus the operand (R111, R121) -/

/-- R111: below a format A opcode the operand's bits are 0, so adding the operand puts it there. -/
theorem formatA_add_operand (op : BitVec 4) (x : Field12) : (op ++ 0#12 : Word) + x.setWidth 16 = op ++ x := by
  have hop := op.isLt
  have hx := x.isLt
  apply BitVec.eq_of_toNat_eq
  rw [BitVec.toNat_add, formatA_toNat, formatA_toNat, BitVec.toNat_setWidth, BitVec.toNat_ofNat]
  omega

/-- R115, R116: the word of a primary opcode plus an operand decodes by `PRIMARY`. -/
theorem decode_formatA_add {op : BitVec 4} {x : Field12} {i : Instr} (h : primary op x = some i) :
    decode ((op ++ 0#12 : Word) + x.setWidth 16) = .ok i := by
  apply decode_of_primary
  rwa [formatA_add_operand, opField_append, xField_append]

end Sys2Proof

namespace Sys2Proof.Machine

/-! ## Direct-address and constant instructions (R160 to R164) -/

/-- R114: a direct address names a Memory word. -/
theorem directAddress_inRange (x : Field12) : inRange (directAddress x) = true :=
  (inRange_iff _).2 ((directAddress_toNat x).trans_lt x.isLt)

/-- R74, R83: a data read at a direct address, over a coherent data cache. -/
theorem dRead_directAddress {s : State} (hs : s.dc.Shaped) (hc : Coherent s.dc s.memory) (x : Field12) :
    dRead s (directAddress x) = (memRead s.memory x.toNat, s.setDc (s.dc.read s.memory x.toNat).2) := by
  rw [dRead_of_inRange s (directAddress_inRange x), hc.read hs, directAddress_toNat, Cache.read]

/-- R75: a data write at a direct address is one write of the data cache. -/
theorem dWrite_directAddress (s : State) (x : Field12) (v : Word) :
    dWrite s (directAddress x) v =
      (s.setDc (s.dc.write s.memory x.toNat v).1).setMemory (memWrite s.memory x.toNat v) := by
  rw [dWrite_of_inRange s (directAddress_inRange x), directAddress_toNat, Cache.write]

/-- R62: `MemWrite` stores the word at its address and touches no byte outside it. -/
theorem storedWord_memWrite {m : Memory} (hm : m.wf) (a : Nat) (v : Word) : StoredWord m (memWrite m a v) a v :=
  ⟨fun ha => memRead_memWrite_self hm ha v, fun ha => if_neg (Nat.not_lt.2 ha),
    fun _ hb => readByte_memWrite hm a v hb⟩

/-- R69: after a write the line of its address holds the word written. -/
theorem Cache.Shaped.write_wordAt {c : Cache} (h : c.Shaped) (m : Memory) (a : Nat) (v : Word) :
    (c.write m a v).1.wordAt a = v :=
  (h.access m a).setWordAt_wordAt a v

/-- R160. -/
theorem exec_lodd (x : Field12) (s : State) :
    exec (.lodd x) s = .next ((dRead s (directAddress x)).2.setAc (dRead s (directAddress x)).1) := rfl

/-- R161. -/
theorem exec_stod (x : Field12) (s : State) : exec (.stod x) s = .next (dWrite s (directAddress x) s.ac) := rfl

/-- R162: the sum of `AC` and the word read, as words. -/
theorem exec_addd (x : Field12) (s : State) :
    exec (.addd x) s = .next ((dRead s (directAddress x)).2.setAc (s.ac + (dRead s (directAddress x)).1)) := by
  rw [← dRead_ac s (directAddress x), ← addWord_eq]
  rfl

/-- R163: the difference of `AC` and the word read, as words. -/
theorem exec_subd (x : Field12) (s : State) :
    exec (.subd x) s = .next ((dRead s (directAddress x)).2.setAc (s.ac - (dRead s (directAddress x)).1)) := by
  rw [← dRead_ac s (directAddress x), ← subWord_eq]
  rfl

/-- R164. -/
theorem exec_loco (x : Field12) (s : State) : exec (.loco x) s = .next (s.setAc (constantOperand x)) := rfl

/-- R164: the upper four bits of the constant are 0. -/
theorem constantOperand_upperBits (x : Field12) : (constantOperand x).extractLsb' 12 4 = 0#4 := by
  apply BitVec.eq_of_toNat_eq
  rw [extractLsb'_toNat_div_mod, constantOperand_toNat, Nat.div_eq_of_lt x.isLt]
  rfl

/-- Settles O31: the read is in range and, by coherence, returns the word of Memory. -/
theorem loddLoadsMemoryWord : Obligations.LoddLoadsMemoryWord := by
  intro s x hs hc
  refine ⟨decode_formatA_add (op := 0x0#4) rfl, ?_⟩
  rw [exec_lodd, dRead_directAddress hs hc]
  rfl

/-- Settles O32: the write is in range, so it reaches both Memory and the line of `x`. -/
theorem stodStoresAccumulator : Obligations.StodStoresAccumulator := by
  intro s x hm hs
  refine ⟨decode_formatA_add (op := 0x1#4) rfl, dWrite s (directAddress x) s.ac, exec_stod x s, ?_⟩
  rw [dWrite_directAddress]
  exact ⟨rfl, storedWord_memWrite hm _ _, hs.apply_isHit_self _ (.write x.toNat s.ac), hs.write_wordAt _ _ _⟩

/-- Settles O33: both read as LODD does and combine the word with the old `AC`. -/
theorem adddAndSubdWrap : Obligations.AdddAndSubdWrap := by
  intro s x hs hc
  refine ⟨decode_formatA_add (op := 0x2#4) rfl, decode_formatA_add (op := 0x3#4) rfl, ?_, ?_⟩
  · rw [exec_addd, dRead_directAddress hs hc]
    rfl
  · rw [exec_subd, dRead_directAddress hs hc]
    rfl

/-- Settles O34: a zero-extended 12-bit constant keeps its value and has upper bits 0. -/
theorem locoLoadsConstant : Obligations.LocoLoadsConstant := by
  intro s x
  exact ⟨decode_formatA_add (op := 0x7#4) rfl, s.setAc (constantOperand x), exec_loco x s, rfl,
    constantOperand_toNat x, constantOperand_upperBits x⟩

end Sys2Proof.Machine

namespace Sys2Proof.Machine

/-! ## Stack-relative instructions (R170 to R173) -/

/-- 42_local.md: the effective address as a sum of words. -/
theorem localAddress_eq (s : State) (x : Field12) : localAddress s x = s.sp + x.setWidth 16 := addWord_eq _ _

/-- R60, R74: the range check, read on the number of the address. -/
theorem ite_inRange {α : Type} (a : Word) (u v : α) :
    (if inRange a then u else v) = if a.toNat < 4096 then u else v :=
  if_congr (inRange_iff a) rfl rfl

/-- R74, R83: a data read at any address, over a coherent data cache. -/
theorem dRead_of_coherent {s : State} (hs : s.dc.Shaped) (hc : Coherent s.dc s.memory) (a : Word) :
    dRead s a = (memRead s.memory a.toNat,
      s.setDc (if a.toNat < 4096 then (s.dc.read s.memory a.toNat).2 else s.dc)) := by
  rw [← ite_inRange]
  exact Prod.ext (dRead_value s hs hc a) (dRead_state s a)

/-- R75: a data write at any address is one write of the data cache, or none when the address is out of range. -/
theorem dWrite_eq_write (s : State) (a v : Word) :
    dWrite s a v =
      (s.setDc (if a.toNat < 4096 then (s.dc.write s.memory a.toNat v).1 else s.dc)).setMemory
        (memWrite s.memory a.toNat v) := by
  rw [← ite_inRange]
  exact dWrite_state s a v

/-- R74, R75: an address outside 0..4095 fails the range check. -/
theorem inRange_eq_false {a : Word} (h : 4096 ≤ a.toNat) : inRange a = false :=
  Bool.eq_false_iff.2 (mt (inRange_iff a).1 (Nat.not_lt.2 h))

/-- R61: outside 0..4095 the word read is 0, so a result that is `f 0` there is `f` of the word read everywhere. -/
theorem ite_memRead (f : Word → Word) {v : Word} (hv : f 0 = v) (m : Memory) (a : Nat) :
    (if a < 4096 then f (memRead m a) else v) = f (memRead m a) := by
  by_cases ha : a < 4096
  · rw [if_pos ha]
  · rw [if_neg ha, memRead_out m (Nat.not_lt.1 ha), hv]

section Arms

variable (x : Field12) (s : State)

/-- R170. -/
theorem exec_lodl :
    exec (.lodl x) s = .next ((dRead s (s.sp + x.setWidth 16)).2.setAc (dRead s (s.sp + x.setWidth 16)).1) := by
  rw [← localAddress_eq]
  rfl

/-- R171. -/
theorem exec_stol : exec (.stol x) s = .next (dWrite s (s.sp + x.setWidth 16) s.ac) := by
  rw [← localAddress_eq]
  rfl

/-- R172: the sum of `AC` and the word read, as words. -/
theorem exec_addl :
    exec (.addl x) s =
      .next ((dRead s (s.sp + x.setWidth 16)).2.setAc (s.ac + (dRead s (s.sp + x.setWidth 16)).1)) := by
  rw [← localAddress_eq, ← dRead_ac s (localAddress s x), ← addWord_eq]
  rfl

/-- R173: the difference of `AC` and the word read, as words. -/
theorem exec_subl :
    exec (.subl x) s =
      .next ((dRead s (s.sp + x.setWidth 16)).2.setAc (s.ac - (dRead s (s.sp + x.setWidth 16)).1)) := by
  rw [← localAddress_eq, ← dRead_ac s (localAddress s x), ← subWord_eq]
  rfl

end Arms

/-- Settles O35: by coherence the read returns the word of Memory, which is 0 out of range. -/
theorem lodlLoadsLocalWord : Obligations.LodlLoadsLocalWord := by
  rintro s x _ hs hc rfl
  refine ⟨decode_formatA_add (op := 0x8#4) rfl, ?_⟩
  rw [exec_lodl, dRead_of_coherent hs hc, ite_memRead (fun w => w) rfl]
  rfl

/-- Settles O36: an in-range write reaches both Memory and the line of `ea`; any other is dropped. -/
theorem stolStoresLocalWord : Obligations.StolStoresLocalWord := by
  rintro s x ea hm hs rfl
  refine ⟨decode_formatA_add (op := 0x9#4) rfl, fun hout => ?_, dWrite s (s.sp + x.setWidth 16) s.ac,
    exec_stol x s, ?_⟩
  · rw [exec_stol, dWrite_of_out s (inRange_eq_false hout)]
  · rw [dWrite_eq_write]
    refine ⟨rfl, storedWord_memWrite hm _ _, fun hin => ?_⟩
    rw [if_pos hin]
    exact ⟨hs.apply_isHit_self s.memory (.write _ s.ac), hs.write_wordAt _ _ _⟩

/-- Settles O37: both read as LODL does; the 0 read out of range leaves the old `AC`. -/
theorem addlAndSublWrap : Obligations.AddlAndSublWrap := by
  rintro s x _ hs hc rfl
  refine ⟨decode_formatA_add (op := 0xA#4) rfl, decode_formatA_add (op := 0xB#4) rfl, ?_, ?_⟩
  · rw [exec_addl, dRead_of_coherent hs hc, ite_memRead (s.ac + ·) (BitVec.add_zero _)]
    rfl
  · rw [exec_subl, dRead_of_coherent hs hc, ite_memRead (s.ac - ·) (BitVec.sub_zero _)]
    rfl

end Sys2Proof.Machine

namespace Sys2Proof.Machine

/-! ## Jumps (R180 to R184) -/

/-- R10: the two's-complement reading of the model is the one of bit vectors. -/
theorem signed_eq_toInt (v : Word) : signed v = v.toInt := by
  rw [signed, BitVec.toInt_eq_toNat_cond]
  split <;> split <;> omega

/-- R180: the sign test of JPOS, on the two's-complement value. -/
theorem condPos_iff_toInt (v : Word) : condPos v = true ↔ 0 ≤ v.toInt := by
  rw [condPos, decide_eq_true_eq, signed_eq_toInt]

/-- R183: the sign test of JNEG, on the two's-complement value. -/
theorem condNeg_iff_toInt (v : Word) : condNeg v = true ↔ v.toInt < 0 := by
  rw [condNeg, decide_eq_true_eq, signed_eq_toInt]

/-- R180: whichever way its test goes, a conditional jump writes `PC` only. -/
theorem jumpIf_eq_setPc {cond : Bool} {p : Prop} [Decidable p] (hcond : cond = true ↔ p) (x : Field12) (s : State) :
    jumpIf cond x s = .next (s.setPc (if p then jumpTarget x else s.pc)) := by
  by_cases hp : p
  · rw [jumpIf, if_pos (hcond.2 hp), if_pos hp]
  · rw [jumpIf, if_neg (mt hcond.1 hp), if_neg hp]
    rfl

section Arms

variable (x : Field12) (s : State)

/-- R180. -/
theorem exec_jpos : exec (.jpos x) s = .next (s.setPc (if 0 ≤ s.ac.toInt then jumpTarget x else s.pc)) :=
  jumpIf_eq_setPc (condPos_iff_toInt s.ac) x s

/-- R181. -/
theorem exec_jzer : exec (.jzer x) s = .next (s.setPc (if s.ac = 0 then jumpTarget x else s.pc)) :=
  jumpIf_eq_setPc (condZero_iff s.ac) x s

/-- R182. -/
theorem exec_jump : exec (.jump x) s = .next (s.setPc (jumpTarget x)) := rfl

/-- R183. -/
theorem exec_jneg : exec (.jneg x) s = .next (s.setPc (if s.ac.toInt < 0 then jumpTarget x else s.pc)) :=
  jumpIf_eq_setPc (condNeg_iff_toInt s.ac) x s

/-- R184: JNZE stays where JZER jumps. -/
theorem exec_jnze : exec (.jnze x) s = .next (s.setPc (if s.ac = 0 then s.pc else jumpTarget x)) := by
  rw [← ite_not]
  exact jumpIf_eq_setPc (condNonZero_iff s.ac) x s

end Arms

/-- Settles O38: the model's signed value is the two's-complement one, and a conditional jump writes `PC` only. -/
theorem jposAndJnegTestSign : Obligations.JposAndJnegTestSign :=
  fun s x => ⟨decode_formatA_add (op := 0x4#4) rfl, decode_formatA_add (op := 0xC#4) rfl, exec_jpos x s, exec_jneg x s⟩

/-- Settles O39: both test whether the whole of `AC` is 0, and a conditional jump writes `PC` only. -/
theorem jzerAndJnzeTestZero : Obligations.JzerAndJnzeTestZero :=
  fun s x => ⟨decode_formatA_add (op := 0x5#4) rfl, decode_formatA_add (op := 0xD#4) rfl, exec_jzer x s, exec_jnze x s⟩

/-- Settles O40. -/
theorem jumpAlwaysTaken : Obligations.JumpAlwaysTaken :=
  fun s x => ⟨decode_formatA_add (op := 0x6#4) rfl, exec_jump x s⟩

end Sys2Proof.Machine

namespace Sys2Proof.Machine

/-! ## Push, pop, call and return (R24, R190 to R192) -/

section Stack

variable (s : State) (v : Word)

/-- R24, R75: a push is one write of the data cache at `SP - 1`, or none when that address is out of range. -/
theorem pushWord_eq_write :
    pushWord s v =
      ((s.setSp (s.sp - 1)).setDc
        (if (s.sp - 1).toNat < 4096 then (s.dc.write s.memory (s.sp - 1).toNat v).1 else s.dc)).setMemory
        (memWrite s.memory (s.sp - 1).toNat v) := by
  rw [pushWord_state, dWrite_eq_write, pushAddress_eq]
  rfl

@[simp] theorem pushWord_sp : (pushWord s v).sp = s.sp - 1 := by
  rw [pushWord_eq_write]
  rfl

@[simp] theorem pushWord_ac : (pushWord s v).ac = s.ac := dWrite_ac _ _ _

@[simp] theorem popWord_sp : (popWord s).2.sp = s.sp + 1 := by
  rw [popWord_state, State.setSp_sp, poppedSp_eq]

@[simp] theorem popWord_ac : (popWord s).2.ac = s.ac := dRead_ac _ _

@[simp] theorem popWord_memory : (popWord s).2.memory = s.memory := dRead_memory _ _

/-- R24: a pop takes its word from `SP`, Memory and the data cache; the program counter has no part in it. -/
theorem popWord_setPc_value : (popWord (s.setPc v)).1 = (popWord s).1 :=
  dRead_value_congr (s := s.setPc v) (t := s) rfl rfl s.sp

end Stack

/-- R24, R83: a pop over a coherent data cache. -/
theorem popWord_of_coherent {s : State} (hs : s.dc.Shaped) (hc : Coherent s.dc s.memory) :
    popWord s = (memRead s.memory s.sp.toNat,
      (s.setDc (if s.sp.toNat < 4096 then (s.dc.read s.memory s.sp.toNat).2 else s.dc)).setSp (s.sp + 1)) := by
  rw [← poppedSp_eq, popWord, dRead_of_coherent hs hc]
  rfl

/-- R24, R68: a pop returns what an in-range push left, from the cache line itself, coherent or not. -/
theorem popWord_pushWord_value {s : State} (hs : s.dc.Shaped) (htop : (s.sp - 1).toNat < 4096) (v : Word) :
    (popWord (pushWord s v)).1 = v := by
  rw [← pushAddress_eq] at htop
  rw [popWord_value, pushWord_sp, ← pushAddress_eq, pushWord_state]
  exact dRead_dWrite (s.setSp (pushAddress s)) hs ((inRange_iff _).2 htop) v

/-- R190. -/
theorem exec_call (x : Field12) (s : State) : exec (.call x) s = .next ((pushWord s s.pc).setPc (jumpTarget x)) := rfl

/-- R191. -/
theorem exec_retn (s : State) : exec .retn s = .next ((popWord s).2.setPc (popWord s).1) := rfl

/-- Settles O41: the push is one data write at `SP - 1`, dropped out of range, and the jump follows it either way. -/
theorem callPushesNextPc : Obligations.CallPushesNextPc := by
  rintro s x _ hm - rfl
  refine ⟨decode_formatA_add (op := 0xE#4) rfl, (pushWord s s.pc).setPc (jumpTarget x), exec_call x s, ?_⟩
  rw [pushWord_eq_write]
  exact ⟨rfl, storedWord_memWrite hm _ _⟩

/-- Settles O42: by coherence the pop returns the word of Memory, which is 0 out of range. -/
theorem retnPopsPc : Obligations.RetnPopsPc := by
  intro s hs hc
  refine ⟨rfl, ?_⟩
  rw [exec_retn, popWord_of_coherent hs hc, ite_memRead (fun w => w) rfl]
  rfl

/-- Settles O43: the pop finds what the push left at `SP - 1`, and stores nothing. -/
theorem callThenRetnRestoresPc : Obligations.CallThenRetnRestoresPc := by
  intro s x hm hs htop
  refine ⟨_, _, exec_call x s, exec_retn _, ?pc, ?sp, ?ac, ?memory⟩
  case pc => rw [State.setPc_pc, popWord_setPc_value, popWord_pushWord_value hs htop]
  case sp => rw [State.setPc_sp, popWord_sp, State.setPc_sp, pushWord_sp, BitVec.sub_add_cancel]
  case ac => rw [State.setPc_ac, popWord_ac, State.setPc_ac, pushWord_ac]
  case memory =>
    rw [State.setPc_memory, popWord_memory, State.setPc_memory, pushWord_memory, pushAddress_eq]
    exact memRead_memWrite_self hm htop s.pc

end Sys2Proof.Machine

namespace Sys2Proof

/-! ## A word of the extended group written as its upper byte plus its operand (R112, R117) -/

/-- R112: the operand fills the zero byte below the upper byte. -/
theorem formatS_add_operand (u : BitVec 8) (y : Field8) : (u ++ 0#8 : Word) + y.setWidth 16 = u ++ y := by
  apply BitVec.eq_of_toNat_eq
  have hu := u.isLt
  have hy := y.isLt
  rw [BitVec.toNat_add, formatS_toNat, formatS_toNat, BitVec.toNat_setWidth, BitVec.toNat_ofNat]
  omega

/-- R112: the opcode bits of a format S word are the upper half of its upper byte. -/
theorem opField_formatS (u : BitVec 8) (y : Field8) : opField (u ++ y) = u.extractLsb' 4 4 := by
  apply BitVec.eq_of_toNat_eq
  have hu := u.isLt
  have hy := y.isLt
  rw [opField_toNat, formatS_toNat, BitVec.extractLsb'_toNat, Nat.shiftRight_eq_div_pow]
  omega

/-- R115, R117: the word of an upper byte whose upper half is `0b1111`, plus an operand, decodes by the extended group. -/
theorem decode_formatS_add {u : BitVec 8} (hu : u.extractLsb' 4 4 = 0xF#4) (y : Field8) :
    decode ((u ++ 0#8 : Word) + y.setWidth 16) = decodeExtended (u ++ y) := by
  rw [formatS_add_operand, decode_of_extended ((opField_formatS u y).trans hu)]

/-- R117: the upper byte of INSP. -/
theorem decodeExtended_insp (y : Field8) : decodeExtended (0xFC#8 ++ y) = .ok (.insp y) := by
  rw [decodeExtended, upperByte_append, yField_append]
  rfl

/-- R117: the upper byte of DESP. -/
theorem decodeExtended_desp (y : Field8) : decodeExtended (0xFE#8 ++ y) = .ok (.desp y) := by
  rw [decodeExtended, upperByte_append, yField_append]
  rfl

end Sys2Proof

namespace Sys2Proof.Machine

/-! ## Stack instructions (R200 to R206) -/

section Arms

variable (s : State)

/-- R200. -/
theorem exec_pshi : exec .pshi s = .next (pushWord (dRead s s.ac).2 (dRead s s.ac).1) := rfl

/-- R201: the read moves neither `AC` nor `SP`, and the write does not move `SP`. -/
theorem exec_popi :
    exec .popi s = .next ((dWrite (dRead s s.sp).2 s.ac (dRead s s.sp).1).setSp (s.sp + 1)) := by
  change execPopi s = _
  rw [execPopi, poppedSp_eq, dWrite_sp, dRead_sp, dRead_ac]

/-- R202. -/
theorem exec_push : exec .push s = .next (pushWord s s.ac) := rfl

/-- R203. -/
theorem exec_pop : exec .pop s = .next ((popWord s).2.setAc (popWord s).1) := rfl

/-- R204. -/
theorem exec_swap : exec .swap s = .next ((s.setAc s.sp).setSp s.ac) := rfl

/-- R205: the sum of `SP` and the amount, as words. -/
theorem exec_insp (y : Field8) : exec (.insp y) s = .next (s.setSp (s.sp + stackAmount y)) := by
  rw [← addWord_eq]
  rfl

/-- R206: the difference of `SP` and the amount, as words. -/
theorem exec_desp (y : Field8) : exec (.desp y) s = .next (s.setSp (s.sp - stackAmount y)) := by
  rw [← subWord_eq]
  rfl

end Arms

/-- Settles O44: by coherence the read gives the word of Memory, 0 out of range; the push is one data write into the cache
the read left, dropped out of range. -/
theorem pshiPushesWordAtAccumulator : Obligations.PshiPushesWordAtAccumulator := by
  rintro s _ _ hm hs hc rfl rfl
  refine ⟨rfl, pushWord (dRead s s.ac).2 (dRead s s.ac).1, exec_pshi s, ?_⟩
  rw [dRead_of_coherent hs hc, pushWord_eq_write, ite_memRead (fun w => w) rfl]
  exact ⟨rfl, storedWord_memWrite hm _ _, _, rfl, rfl⟩

/-- Settles O45: the read is as in O44, the store at `AC` is one data write into the cache the read left, dropped out of
range, and the stack pointer moves either way. -/
theorem popiPopsToAccumulatorAddress : Obligations.PopiPopsToAccumulatorAddress := by
  rintro s _ hm hs hc rfl
  refine ⟨rfl, (dWrite (dRead s s.sp).2 s.ac (dRead s s.sp).1).setSp (s.sp + 1), exec_popi s, ?_⟩
  rw [dRead_of_coherent hs hc, dWrite_eq_write, ite_memRead (fun w => w) rfl]
  exact ⟨rfl, storedWord_memWrite hm _ _, _, rfl, rfl⟩

/-- Settles O46: the push is one data write at `SP - 1`, dropped out of range. -/
theorem pushStoresAccumulator : Obligations.PushStoresAccumulator := by
  rintro s _ hm - rfl
  refine ⟨rfl, pushWord s s.ac, exec_push s, ?_⟩
  rw [pushWord_eq_write]
  exact ⟨rfl, storedWord_memWrite hm _ _⟩

/-- Settles O47: by coherence the pop returns the word of Memory, 0 out of range; after an in-range push it returns the
pushed word from the cache line, and `SP - 1 + 1` is `SP`. -/
theorem popLoadsAccumulator : Obligations.PopLoadsAccumulator := by
  constructor
  · intro s hs hc
    refine ⟨rfl, ?_⟩
    rw [exec_pop, popWord_of_coherent hs hc, ite_memRead (fun w => w) rfl]
    rfl
  · intro s hs htop
    refine ⟨_, _, exec_push s, exec_pop _, ?ac, ?sp⟩
    case ac => rw [State.setAc_ac, popWord_pushWord_value hs htop]
    case sp => rw [State.setAc_sp, popWord_sp, pushWord_sp, BitVec.sub_add_cancel]

/-- Settles O48. -/
theorem swapExchanges : Obligations.SwapExchanges :=
  fun s => ⟨rfl, exec_swap s⟩

/-- Settles O49: the upper bytes 0xFC and 0xFE select the two, and the model's wrapping sum and difference are those of
words. -/
theorem inspAndDespMoveStackPointer : Obligations.InspAndDespMoveStackPointer :=
  fun s y => ⟨(decode_formatS_add (u := 0xFC#8) rfl y).trans (decodeExtended_insp y),
    (decode_formatS_add (u := 0xFE#8) rfl y).trans (decodeExtended_desp y), exec_insp s y, exec_desp s y⟩

end Sys2Proof.Machine

namespace Sys2Proof.Machine

/-! ## HALT and unknown words (R210 to R213) -/

/-- R211: the arm of an unknown word. -/
theorem execUnknown_eq (w : Word) (s : State) : execUnknown w s = .next (logUnknown s w) := rfl

/-- R211: the step that fetches an unknown word. -/
theorem step_of_unknown {s : State} {w : Word} (hrun : s.halted = false) (hpc : s.pc.toNat < 4096)
    (hw : decode (fetch s).ir = .error (.unknown w)) : step s = .next (logUnknown (fetch s) w) := by
  rw [step_of_running hrun hpc, runFetched_of_unknown hw, execUnknown_eq]

/-- R213: an instruction stops the engine exactly when it is HALT, and restarts it never. -/
theorem exec_halted {i : Instr} {s t : State} (h : exec i s = .next t) : t.halted = (s.halted || decide (i = .halt)) := by
  by_cases hi : i = .halt
  · subst hi
    obtain rfl := Host.Outcome.next.inj ((exec_halt s).symm.trans h)
    exact (Bool.or_true s.halted).symm
  · rw [(exec_keepsAllBut hi h).halted, decide_eq_false hi, Bool.or_false]

@[simp] theorem hostReset_halted (s : State) : (hostReset s).halted = false := rfl

@[simp] theorem loadProgram_halted (words : List Word) (s : State) : (loadProgram words s).halted = false := rfl

/-- R140, R307: of the host's moves only `reset()` and `loadProgram()` change a halted machine. -/
theorem HostOp.apply_of_halted {s : State} (hs : s.halted = true) {op : HostOp} (hreset : op ≠ .reset)
    (hload : ∀ words, op ≠ .loadProgram words) : op.apply s = .next s := by
  cases op with
  | compile _ | observe => rfl
  | step => exact step_of_halted hs
  | reset => exact absurd rfl hreset
  | loadProgram words => exact absurd rfl (hload words)

/-- R213: the host's ways out of `halted`. -/
theorem HostOp.apply_clears_halted_iff {op : HostOp} {s t : State} (h : op.apply s = .next t) (hs : s.halted = true) :
    t.halted = false ↔ op = .reset ∨ ∃ words, op = .loadProgram words := by
  constructor
  case mp =>
    intro hclear
    by_contra hop
    obtain ⟨hreset, hload⟩ := not_or.1 hop
    obtain rfl := Host.Outcome.next.inj ((apply_of_halted hs hreset (not_exists.1 hload)).symm.trans h)
    exact Bool.false_ne_true (hclear.symm.trans hs)
  case mpr =>
    rintro (rfl | ⟨words, rfl⟩)
    · exact Host.Outcome.next.inj h ▸ hostReset_halted s
    · exact Host.Outcome.next.inj h ▸ loadProgram_halted words s

/-- Settles O19: the step is the fetch followed by the notice, and the unknown word is the one fetched. -/
theorem unknownWordIsLoggedNoOp : Obligations.UnknownWordIsLoggedNoOp := by
  intro s w hrun hpc hw
  refine ⟨logUnknown (fetch s) w, step_of_unknown hrun hpc hw, ?frame, List.mem_append_right _ (.head _)⟩
  case frame =>
    obtain rfl := decode_unknown hw
    rw [← addWord_eq]
    rfl

/-- Settles O24: an arm changes the flag only for HALT, and a halted machine steps to itself, so the host's two moves that
start from the reset state are the only ways out. -/
theorem onlyHaltStopsAndOnlyHostRestarts : Obligations.OnlyHaltStopsAndOnlyHostRestarts := by
  refine ⟨fun _ _ _ => exec_halted, fun w s t h => ?unknown, fun _ _ _ => HostOp.apply_clears_halted_iff,
    hostReset_halted, loadProgram_halted⟩
  case unknown => exact Host.Outcome.next.inj ((execUnknown_eq w s).symm.trans h) ▸ rfl

/-- Settles O50: the all-ones word is HALT (R118), whose arm sets the flag and appends the two flush entries. -/
theorem haltSetsFlagAndFlushes : Obligations.HaltSetsFlagAndFlushes :=
  fun s => ⟨by decide, exec_halt s⟩

end Sys2Proof.Machine

namespace Sys2Proof.Machine

/-! ## Pass 1 of the assembler (R222 to R231) -/

section Pass1

variable {p : AsmParams} {st : AsmState}

/-- R231: the newest definition of a name is the one that is looked up. -/
@[simp] theorem lookupLabel_defineLabel_self (table : List (List Char × Nat)) (name : List Char) (addr : Nat) :
    lookupLabel (defineLabel table name addr) name = some addr := by
  simp [lookupLabel, defineLabel]

/-- R231: a definition drops entries of its own name only. -/
theorem lookupLabel_defineLabel_of_ne (table : List (List Char × Nat)) {name other : List Char} (h : other ≠ name)
    (addr : Nat) : lookupLabel (defineLabel table name addr) other = lookupLabel table other := by
  have hkept : (table.filter fun e => e.1 != name).find? (fun e => e.1 == other) = table.find? fun e => e.1 == other := by
    rw [List.find?_filter]
    congr 1
    funext e
    by_cases he : e.1 = other <;> simp [he, h]
  rw [lookupLabel, defineLabel, List.find?_cons, beq_false_of_ne h.symm]
  exact congrArg _ hkept

theorem mem_defineLabel {table : List (List Char × Nat)} {name : List Char} {addr : Nat} {e : List Char × Nat}
    (h : e ∈ defineLabel table name addr) : e = (name, addr) ∨ e ∈ table :=
  (List.mem_cons.1 h).imp_right fun hold => (List.mem_filter.1 hold).1

@[simp] theorem queueBody_labelTable (body : List Char) : (queueBody st body).labelTable = st.labelTable := by
  cases body <;> rfl

/-- R229: an empty body is not queued. -/
theorem queueBody_instructionLines (body : List Char) :
    (queueBody st body).instructionLines =
      if body = [] then st.instructionLines else st.instructionLines ++ [body] := by
  cases body <;> rfl

@[simp] theorem bindLabel_instructionLines (label : Option (List Char)) :
    (bindLabel st label).instructionLines = st.instructionLines := by
  cases label <;> rfl

/-- R229: a line adds at most its body to the queue. -/
theorem mem_queueBody {body b : List Char} (h : b ∈ (queueBody st body).instructionLines) :
    b ∈ st.instructionLines ∨ b = body ∧ body ≠ [] := by
  rw [queueBody_instructionLines] at h
  split at h
  · exact .inl h
  · next hbody => exact (List.mem_append.1 h).imp_right fun hb => ⟨List.mem_singleton.1 hb, hbody⟩

/-- R229: a line is skipped, or binds its label and queues its body. -/
theorem pass1Line_cases (p : AsmParams) (st : AsmState) (line : List Char) :
    pass1Line p st line = st ∨
      pass1Line p st line = queueBody (bindLabel st (splitLabel (trim (stripComment p line))).1)
        (splitLabel (trim (stripComment p line))).2 := by
  unfold pass1Line
  exact ite_eq_or_eq _ _ _

/-- R225, R229: a labelled line is not empty, so it is not skipped. -/
theorem pass1Line_of_label {line name body : List Char}
    (h : splitLabel (trim (stripComment p line)) = (some name, body)) :
    pass1Line p st line = queueBody (bindLabel st (some name)) body := by
  have hline : (trim (stripComment p line)).isEmpty = false := by
    cases hs : trim (stripComment p line) with
    | nil => exact nomatch (congrArg Prod.fst (hs ▸ h) : (none : Option (List Char)) = some name)
    | cons _ _ => rfl
  simp only [pass1Line, hline, h]
  rfl

/-- What holds before the first line and is kept by every line holds after pass 1. -/
theorem pass1_induction {motive : AsmState → Prop} (hinitial : motive AsmState.initial)
    (hline : ∀ st line, motive st → motive (pass1Line p st line)) (src : List Char) : motive (pass1 p src) :=
  List.foldlRecOn _ _ hinitial fun st hst line _ => hline st line hst

/-- R229: the address counter counts the queued bodies, and no label lies above it. -/
structure AsmState.Counted (st : AsmState) : Prop where
  counter : st.addressCounter = st.instructionLines.length
  labels  : ∀ e ∈ st.labelTable, e.2 ≤ st.addressCounter

theorem AsmState.Counted.bindLabel (h : st.Counted) (label : Option (List Char)) : (bindLabel st label).Counted := by
  cases label with
  | none => exact h
  | some name =>
    refine ⟨h.counter, fun e he => ?_⟩
    obtain rfl | hold := mem_defineLabel he
    · exact le_rfl
    · exact h.labels e hold

theorem AsmState.Counted.queueBody (h : st.Counted) (body : List Char) : (queueBody st body).Counted := by
  cases body with
  | nil => exact h
  | cons c cs =>
    refine ⟨?_, fun e he => Nat.le_succ_of_le (h.labels e he)⟩
    show st.addressCounter + 1 = (st.instructionLines ++ [c :: cs]).length
    rw [h.counter, List.length_append, List.length_singleton]

theorem AsmState.Counted.pass1Line (h : st.Counted) (line : List Char) : (pass1Line p st line).Counted := by
  obtain hskip | hqueue := pass1Line_cases p st line
  · rwa [hskip]
  · rw [hqueue]
    exact (h.bindLabel _).queueBody _

theorem pass1_counted (p : AsmParams) (src : List Char) : (pass1 p src).Counted :=
  pass1_induction ⟨rfl, nofun⟩ (fun _ line h => h.pass1Line line) src

end Pass1

/-- Settles O53: a labelled line defines its label at the counter, which queueing its body does not touch again, and every
line keeps `AsmState.Counted`. -/
theorem labelBindsToCounterLastWins : Obligations.LabelBindsToCounterLastWins := by
  refine ⟨fun p st line name body h => ?line, fun p src => ⟨(pass1_counted p src).counter, (pass1_counted p src).labels⟩⟩
  case line =>
    rw [pass1Line_of_label h, queueBody_labelTable, queueBody_instructionLines, bindLabel_instructionLines]
    exact ⟨lookupLabel_defineLabel_self _ _ _, fun _ hne => lookupLabel_defineLabel_of_ne _ hne _, rfl⟩

/-! ## Pass 2 and the result of `compile` (R220, R232, R237) -/

/-- R220: the word of a line that assembles. -/
def LineResult.word? : LineResult → Option Word
  | .word w => some w
  | .error _ => none

/-- R237: the entry in the list of errors of a line that does not assemble, the `k`-th of the queue. -/
def LineResult.errorAt? (k : Nat) : LineResult → Option (Nat × AsmErrorKind)
  | .word _ => none
  | .error e => some (k, e)

section Pass2

variable {p : AsmParams} {table : List (List Char × Nat)} {k : Nat} {body : List Char} {rest : List (List Char)}

theorem pass2From_cons_of_word {w : Word} (h : assembleLine p table body = .word w) :
    pass2From p table k (body :: rest) =
      { pass2From p table (k + 1) rest with binary := w :: (pass2From p table (k + 1) rest).binary } := by
  simp only [pass2From, h]

theorem pass2From_cons_of_error {e : AsmErrorKind} (h : assembleLine p table body = .error e) :
    pass2From p table k (body :: rest) =
      { pass2From p table (k + 1) rest with errors := (k, e) :: (pass2From p table (k + 1) rest).errors } := by
  simp only [pass2From, h]

/-- R220: the binary is the words of the lines that assemble, in order. -/
theorem pass2From_binary (bodies : List (List Char)) :
    (pass2From p table k bodies).binary = bodies.filterMap fun b => (assembleLine p table b).word? := by
  induction bodies generalizing k with
  | nil => rfl
  | cons b bs ih =>
    cases h : assembleLine p table b with
    | word w => rw [pass2From_cons_of_word h, List.filterMap_cons_some (h ▸ rfl : _ = some w), ih]
    | error e => rw [pass2From_cons_of_error h, List.filterMap_cons_none (h ▸ rfl), ih]

/-- R237: the errors are those of the lines that do not assemble, in order, numbered by their places in the queue. -/
theorem pass2From_errors (bodies : List (List Char)) :
    (pass2From p table k bodies).errors =
      (bodies.zipIdx k).filterMap fun b => (assembleLine p table b.1).errorAt? b.2 := by
  induction bodies generalizing k with
  | nil => rfl
  | cons b bs ih =>
    rw [List.zipIdx_cons]
    cases h : assembleLine p table b with
    | word w => rw [pass2From_cons_of_word h, List.filterMap_cons_none (h ▸ rfl), ih]
    | error e => rw [pass2From_cons_of_error h, List.filterMap_cons_some (h ▸ rfl : _ = some (k, e)), ih]

/-- R220: one word or one error per line. -/
theorem pass2From_length (bodies : List (List Char)) :
    (pass2From p table k bodies).binary.length + (pass2From p table k bodies).errors.length = bodies.length := by
  induction bodies generalizing k with
  | nil => rfl
  | cons b bs ih =>
    have hrest := ih (k := k + 1)
    cases h : assembleLine p table b with
    | word w =>
      simp only [pass2From_cons_of_word h, List.length_cons]
      omega
    | error e =>
      simp only [pass2From_cons_of_error h, List.length_cons]
      omega

/-- R230: without errors the lines give exactly the words of the binary, each in its place. -/
theorem map_assembleLine_of_no_errors {bodies : List (List Char)} (herr : (pass2From p table k bodies).errors = []) :
    bodies.map (assembleLine p table) = (pass2From p table k bodies).binary.map .word := by
  induction bodies generalizing k with
  | nil => rfl
  | cons b bs ih =>
    cases h : assembleLine p table b with
    | word w =>
      rw [pass2From_cons_of_word h] at herr ⊢
      rw [List.map_cons, List.map_cons, h, ih herr]
    | error e =>
      rw [pass2From_cons_of_error h] at herr
      exact nomatch herr

end Pass2

/-- Settles O52: `compile` is pass 2 over the queue of pass 1, from line 1 on. -/
theorem eachQueuedLineGivesWordOrError : Obligations.EachQueuedLineGivesWordOrError := by
  rintro p src _ rfl
  exact ⟨pass2From_binary _, pass2From_errors _, pass2From_length _⟩

/-- R221, U9: only a binary without errors is loaded. -/
theorem compileAndLoad_some {p : AsmParams} {src : List Char} {s t : State} (h : compileAndLoad p src s = some t) :
    (compileWith p src).errors = [] ∧ t = loadProgram (compileWith p src).binary s := by
  dsimp only [compileAndLoad] at h
  split at h
  · next herr => exact ⟨List.isEmpty_iff.1 herr, (Option.some.inj h).symm⟩
  · exact nomatch h

/-- R302: word `k` of the program stands at address `k`. -/
theorem memRead_loadProgram {words : List Word} {k : Nat} {w : Word} (hw : words[k]? = some w) (hk : k < memWords)
    (s : State) : memRead (loadProgram words s).memory k = w := by
  have hlen : k < words.length := (List.getElem?_eq_some_iff.1 hw).1
  have hplaced : k < loadAddress + (words.take memWords).length := by
    rw [loadAddress, List.length_take]
    omega
  show memRead (copyWords loadAddress (words.take memWords) []) k = w
  rw [memRead_copyWords Memory.wf_nil _ _ (by rw [loadAddress, List.length_take]; omega),
    if_pos ⟨Nat.zero_le k, hplaced⟩, List.getD_eq_getElem?_getD, loadAddress, Nat.sub_zero,
    List.getElem?_take_of_lt hk, hw, Option.getD_some]

/-- Settles O54: without errors the `k`-th body gives the `k`-th word, and `loadProgram` copies it to address `k`. -/
theorem errorFreeBodyLandsAtItsAddress : Obligations.ErrorFreeBodyLandsAtItsAddress := by
  intro p src body s t k hload hbody hk
  obtain ⟨herr, rfl⟩ := compileAndLoad_some hload
  have hline := congrArg (·[k]?) (map_assembleLine_of_no_errors herr)
  simp only [List.getElem?_map, hbody, Option.map_some] at hline
  obtain ⟨w, hw, hword⟩ := Option.map_eq_some_iff.1 hline.symm
  exact ⟨w, hword.symm, memRead_loadProgram hw hk s⟩

/-! ## The tokens of a queued body (R223, R226) -/

/-- No character is lost between the separators. -/
theorem exists_mem_splitAtChars {sep : Char → Bool} {c : Char} (hc : sep c = false) {s : List Char} (h : c ∈ s) :
    ∃ piece ∈ splitAtChars sep s, c ∈ piece := by
  induction s with
  | nil => exact absurd h List.not_mem_nil
  | cons d ds ih =>
    rw [splitAtChars]
    obtain rfl | hds := List.mem_cons.1 h
    · rw [if_neg (by simp [hc])]
      split
      · exact ⟨[c], .head _, .head _⟩
      · exact ⟨_, .head _, .head _⟩
    · obtain ⟨piece, hpiece, hcp⟩ := ih hds
      split
      · exact ⟨piece, .tail _ hpiece, hcp⟩
      · split
        · next hnil => exact absurd (hnil ▸ hpiece) List.not_mem_nil
        · next l ls hcons =>
          obtain rfl | hls := List.mem_cons.1 (hcons ▸ hpiece)
          · exact ⟨d :: piece, .head _, .tail _ hcp⟩
          · exact ⟨piece, .tail _ hls, hcp⟩

/-- R226: a character that is no whitespace belongs to a token. -/
theorem tokens_ne_nil {body : List Char} {c : Char} (hc : isBlank c = false) (h : c ∈ body) : tokens body ≠ [] := by
  obtain ⟨piece, hpiece, hcp⟩ := exists_mem_splitAtChars hc h
  have htoken : piece ∈ tokens body := List.mem_filter.2 ⟨hpiece, by simpa using List.ne_nil_of_mem hcp⟩
  exact List.ne_nil_of_mem htoken

/-- What `trim` leaves ends in a character that is no whitespace. -/
theorem tokens_trim_ne_nil {s : List Char} (h : trim s ≠ []) : tokens (trim s) ≠ [] := by
  have hne : (s.dropWhile isBlank).reverse.dropWhile isBlank ≠ [] := fun hnil => h (by rw [trim, hnil, List.reverse_nil])
  exact tokens_ne_nil (List.head_dropWhile_not isBlank hne) (List.mem_reverse.2 (List.head_mem hne))

/-- R225: the body of a trimmed line is trimmed, with and without a label. -/
theorem splitLabel_trim_body (s : List Char) : ∃ u, (splitLabel (trim s)).2 = trim u := by
  unfold splitLabel
  split
  · exact ⟨_, rfl⟩
  · exact ⟨s, rfl⟩

/-- R226, R229: every queued body has a token. -/
theorem tokens_of_queued (p : AsmParams) (src : List Char) : ∀ b ∈ (pass1 p src).instructionLines, tokens b ≠ [] := by
  refine pass1_induction (motive := fun st => ∀ b ∈ st.instructionLines, tokens b ≠ []) nofun ?line src
  case line =>
    intro st line hst b hb
    obtain hskip | hqueue := pass1Line_cases p st line
    · exact hst b (hskip ▸ hb)
    · obtain hold | ⟨rfl, hne⟩ := mem_queueBody (hqueue ▸ hb)
      · exact hst b (bindLabel_instructionLines (st := st) _ ▸ hold)
      · obtain ⟨u, hu⟩ := splitLabel_trim_body (stripComment p line)
        rw [hu] at hne ⊢
        exact tokens_trim_ne_nil hne

/-! ## What one body gives (R232 to R236) -/

/-- R227: each mnemonic's spelling is recognised. -/
@[simp] theorem Mnemonic.ofToken_spelling (m : Mnemonic) : ofToken m.spelling = some m := by
  cases m <;> decide

/-- R227: only the spellings are. -/
theorem Mnemonic.ofToken_eq_none {t : List Char} (h : ∀ m : Mnemonic, t ≠ m.spelling) : ofToken t = none :=
  List.find?_eq_none.2 fun m _ hm => h m (beq_iff_eq.1 hm).symm

/-- R233: the mnemonics that take an operand. -/
theorem Mnemonic.takesOperand_iff (m : Mnemonic) :
    m.takesOperand = true ↔ m.base.toNat < 0xF000 ∨ m = .insp ∨ m = .desp := by
  simp [takesOperand, or_assoc]

section Line

variable {p : AsmParams} {table : List (List Char × Nat)} {body first : List Char} {rest : List (List Char)}

theorem assembleLine_of_mnemonic {m : Mnemonic} (h : tokens body = m.spelling :: rest) :
    assembleLine p table body = assembleInstr p table m rest.head? := by
  simp only [assembleLine, h, Mnemonic.ofToken_spelling]

theorem assembleLine_of_no_mnemonic (h : tokens body = first :: rest) (hfirst : ∀ m : Mnemonic, first ≠ m.spelling) :
    assembleLine p table body = assembleData p table first := by
  simp only [assembleLine, h, Mnemonic.ofToken_eq_none hfirst]

/-- R233: what follows a mnemonic without an operand is not looked at. -/
theorem assembleInstr_of_no_operand {m : Mnemonic} (h : ¬ m.takesOperand = true) (opd : Option (List Char)) :
    assembleInstr p table m opd = .word m.base :=
  if_neg h

theorem assembleInstr_missing {m : Mnemonic} (h : m.takesOperand = true) :
    assembleInstr p table m none = .error .missingOperand :=
  if_pos h

/-- R234: an operand is a label first. -/
theorem assembleInstr_label {m : Mnemonic} (h : m.takesOperand = true) {t : List Char} {a : Nat}
    (ht : lookupLabel table t = some a) : assembleInstr p table m (some t) = .word (encodeOperand m a) := by
  simp only [assembleInstr, h, resolveOperand, ht, if_true]

/-- R234: an operand is a literal only where it is no label. -/
theorem assembleInstr_literal {m : Mnemonic} (h : m.takesOperand = true) {t : List Char} {v : Int}
    (ht : lookupLabel table t = none) (hv : intLiteral p t = some v) :
    assembleInstr p table m (some t) = .word (encodeOperand m v) := by
  simp only [assembleInstr, h, resolveOperand, ht, hv, if_true]

theorem assembleInstr_bad {m : Mnemonic} (h : m.takesOperand = true) {t : List Char} (ht : lookupLabel table t = none)
    (hv : intLiteral p t = none) : assembleInstr p table m (some t) = .error .badOperand := by
  simp only [assembleInstr, h, resolveOperand, ht, hv, if_true]

end Line

/-- Settles O56: a queued body is trimmed and not empty; the cases are those of R233, R234 and R236. -/
theorem bodyGivesWordOrErrorByItsTokens : Obligations.BodyGivesWordOrErrorByItsTokens := by
  refine ⟨tokens_of_queued, fun p table body first rest htok => ⟨?mnemonic, fun hfirst => ?data⟩⟩
  case mnemonic =>
    rintro m rfl
    rw [assembleLine_of_mnemonic htok]
    by_cases hop : m.takesOperand = true
    · rw [if_pos (m.takesOperand_iff.1 hop)]
      cases rest with
      | nil => exact assembleInstr_missing hop
      | cons opd _ =>
        cases hlabel : lookupLabel table opd with
        | some a =>
          simp only [hlabel]
          exact assembleInstr_label hop hlabel
        | none =>
          cases hint : intLiteral p opd with
          | some v =>
            simp only [hlabel, hint]
            exact assembleInstr_literal hop hlabel hint
          | none =>
            simp only [hlabel, hint]
            exact assembleInstr_bad hop hlabel hint
    · rw [if_neg (mt m.takesOperand_iff.2 hop), assembleInstr_of_no_operand hop]
  case data =>
    rw [assembleLine_of_no_mnemonic htok hfirst, assembleData]
    cases intLiteral p first with
    | some v => rfl
    | none => cases lookupLabel table first <;> rfl

/-- Settles O51: the two texts are assembled by evaluation. -/
theorem sourceExamplesAssemble : Obligations.SourceExamplesAssemble :=
  ⟨by decide, by decide⟩

end Sys2Proof.Machine

namespace Sys2Proof

/-! ## Decoding and encoding (R115 to R123) -/

/-- R115, R116: a format A word of a primary opcode decodes by `PRIMARY`. -/
theorem decode_formatA {op : BitVec 4} {x : Field12} {i : Instr} (h : primary op x = some i) :
    decode (op ++ x) = .ok i := by
  apply decode_of_primary
  rwa [opField_append, xField_append]

/-- R115, R117: a format S word whose upper byte begins with `0b1111` decodes by the extended group. -/
theorem decode_formatS {u : BitVec 8} (hu : u.extractLsb' 4 4 = 0xF#4) (y : Field8) :
    decode (u ++ y) = decodeExtended (u ++ y) :=
  decode_of_extended ((opField_formatS u y).trans hu)

/-- Settles O1: a word of format A or S gives its two fields back, and the seven words without operand are tabled. -/
theorem decodeOfEncode : Obligations.DecodeOfEncode := by
  intro i
  cases i with
  | lodd _ | stod _ | addd _ | subd _ | jpos _ | jzer _ | jump _ | loco _ | lodl _ | stol _ | addl _ | subl _
  | jneg _ | jnze _ | call _ => exact decode_formatA rfl
  | insp y => exact (decode_formatS rfl y).trans (decodeExtended_insp y)
  | desp y => exact (decode_formatS rfl y).trans (decodeExtended_desp y)
  | pshi | popi | push | pop | retn | swap | halt => decide

/-- R117: an instruction the extended group gives is encoded by the word it came from. -/
theorem encode_of_decodeExtended {w : Word} {i : Instr} (h : decodeExtended w = .ok i) : encode i = w := by
  have hword := upperByte_append_yField w
  unfold decodeExtended at h
  split_ifs at h with hinsp hdesp
  · rw [hinsp] at hword
    exact Except.ok.inj h ▸ hword
  · rw [hdesp] at hword
    exact Except.ok.inj h ▸ hword
  all_goals
    obtain rfl := Except.ok.inj h
    exact Eq.symm ‹w = _›

/-- Settles O2: both groups of decode keep every bit of the word, as fields or as fixed bits. -/
theorem encodeOfDecode : Obligations.EncodeOfDecode := by
  intro w i h
  unfold decode at h
  split at h
  next j hj => exact Except.ok.inj h ▸ (primary_encode hj).trans (opField_append_xField w)
  next => exact encode_of_decodeExtended h

/-- R116, R118: a word is rejected exactly when it is one of the extended group that matches none of its patterns. -/
theorem decode_eq_unknown_iff (w : Word) :
    decode w = .error (.unknown w) ↔
      opField w = 0xF#4 ∧ upperByte w ≠ 0xFC ∧ upperByte w ≠ 0xFE ∧ w ≠ 0xF000 ∧ w ≠ 0xF200 ∧ w ≠ 0xF400 ∧
        w ≠ 0xF600 ∧ w ≠ 0xF800 ∧ w ≠ 0xFA00 ∧ w ≠ 0xFFFF := by
  by_cases hop : opField w = 0xF#4
  · rw [decode_of_extended hop, decodeExtended]
    split_ifs <;> simp_all
  · obtain ⟨i, hi⟩ := Option.isSome_iff_exists.1 ((primary_isSome _ (xField w)).2 hop)
    simp [decode_of_primary hi, hop]

/-- R118: the only rejection of a word is the one that names it. -/
theorem decode_unknown_or_ok (w : Word) : decode w = .error (.unknown w) ∨ ∃ i, decode w = .ok i := by
  match h : decode w with
  | .ok i => exact .inr ⟨i, rfl⟩
  | .error (.unknown v) => exact .inl (decode_unknown h ▸ rfl)

/-- Settles O3: the extended group less its nine patterns, as numbers, is the eight ranges. -/
theorem unknownWordsAreTheEightRanges : Obligations.UnknownWordsAreTheEightRanges := by
  intro w
  refine ⟨decode_unknown_or_ok w, (decode_eq_unknown_iff w).trans ?_⟩
  have hw := w.isLt
  simp only [ne_eq, BitVec.toNat_eq, opField_toNat, upperByte_toNat, BitVec.toNat_ofNat, BitVec.ofNat_eq_ofNat]
  omega

/-- Settles O4: ten closed words, by evaluation. -/
theorem tabledWordsDecode : Obligations.TabledWordsDecode := by
  unfold Obligations.TabledWordsDecode
  decide

end Sys2Proof

namespace Sys2Proof.Machine

/-! ## `Encode(m, v)` (R121 to R123) -/

/-- R122: the operand a word carries is the integer masked to its field. -/
theorem encodeOperand_masked (m : Mnemonic) (v : Int) :
    encodeOperand m (if m.takesOperand then v % m.operandRange else 0) = encodeOperand m v := by
  cases hop : m.takesOperand with
  | true => simp only [encodeOperand, hop, if_true, Int.emod_emod]
  | false => simp only [encodeOperand, hop, if_neg Bool.false_ne_true]

/-- R10: masking the number of a field extends the field by zeros. -/
theorem mask16_natCast_toNat {n : Nat} (x : BitVec n) : mask16 (x.toNat : Int) = x.setWidth 16 := by
  apply BitVec.eq_of_toNat_eq
  have := mask16_toNat (x.toNat : Int)
  rw [BitVec.toNat_setWidth]
  omega

/-- R121, R122: where the operand is taken and fits its field, `Encode` adds it to the base. -/
theorem encodeOperand_toNat {m : Mnemonic} {n : Nat} (hop : m.takesOperand = true) (hrange : m.operandRange = 2 ^ n)
    (x : BitVec n) : encodeOperand m (x.toNat : Int) = m.base + x.setWidth 16 := by
  have hx : (x.toNat : Int) % m.operandRange = x.toNat := by
    rw [hrange]
    exact Int.emod_eq_of_lt (Int.natCast_nonneg _) (by exact_mod_cast x.isLt)
  rw [encodeOperand, if_pos hop, hx, mask16_natCast_toNat, addWord_eq]

/-- R111, R122: `Encode` of a format A mnemonic. -/
theorem encodeOperand_formatA {m : Mnemonic} {op : BitVec 4} (hop : m.takesOperand = true)
    (hrange : m.operandRange = 2 ^ 12) (hbase : m.base = op ++ 0#12) (x : Field12) :
    encodeOperand m (x.toNat : Int) = op ++ x := by
  rw [encodeOperand_toNat hop hrange, hbase, formatA_add_operand]

/-- R112, R122: `Encode` of a format S mnemonic. -/
theorem encodeOperand_formatS {m : Mnemonic} {u : BitVec 8} (hop : m.takesOperand = true)
    (hrange : m.operandRange = 2 ^ 8) (hbase : m.base = u ++ 0#8) (y : Field8) :
    encodeOperand m (y.toNat : Int) = u ++ y := by
  rw [encodeOperand_toNat hop hrange, hbase, formatS_add_operand]

/-- R121, R123: the encoder is `Encode` of the instruction's own mnemonic and operand. -/
theorem encodeOperand_mnemonicOf (i : Instr) : encodeOperand (mnemonicOf i) (operandOf i : Int) = encode i := by
  cases i with
  | lodd x | stod x | addd x | subd x | jpos x | jzer x | jump x | loco x | lodl x | stol x | addl x | subl x
  | jneg x | jnze x | call x => exact encodeOperand_formatA rfl rfl rfl x
  | insp y | desp y => exact encodeOperand_formatS rfl rfl rfl y
  | pshi | popi | push | pop | retn | swap | halt => rfl

/-- R122: the instruction of a mnemonic with an integer operand, cut to its field where it has one. -/
def Mnemonic.instr (m : Mnemonic) (v : Int) : Instr :=
  match m with
  | .lodd => .lodd (.ofInt 12 v)
  | .stod => .stod (.ofInt 12 v)
  | .addd => .addd (.ofInt 12 v)
  | .subd => .subd (.ofInt 12 v)
  | .jpos => .jpos (.ofInt 12 v)
  | .jzer => .jzer (.ofInt 12 v)
  | .jump => .jump (.ofInt 12 v)
  | .loco => .loco (.ofInt 12 v)
  | .lodl => .lodl (.ofInt 12 v)
  | .stol => .stol (.ofInt 12 v)
  | .addl => .addl (.ofInt 12 v)
  | .subl => .subl (.ofInt 12 v)
  | .jneg => .jneg (.ofInt 12 v)
  | .jnze => .jnze (.ofInt 12 v)
  | .call => .call (.ofInt 12 v)
  | .insp => .insp (.ofInt 8 v)
  | .desp => .desp (.ofInt 8 v)
  | .pshi => .pshi
  | .popi => .popi
  | .push => .push
  | .pop => .pop
  | .retn => .retn
  | .swap => .swap
  | .halt => .halt

@[simp] theorem mnemonicOf_instr (m : Mnemonic) (v : Int) : mnemonicOf (m.instr v) = m := by
  cases m <;> rfl

/-- An integer cut to `n` bits is its floor remainder by `2 ^ n`. -/
theorem natCast_toNat_ofInt (n : Nat) (v : Int) : ((BitVec.ofInt n v).toNat : Int) = v % 2 ^ n := by
  rw [BitVec.toNat_ofInt, Int.toNat_of_nonneg (Int.emod_nonneg _ (by positivity))]
  norm_cast

theorem operandOf_instr (m : Mnemonic) (v : Int) :
    (operandOf (m.instr v) : Int) = if m.takesOperand then v % m.operandRange else 0 := by
  cases m with
  | lodd | stod | addd | subd | jpos | jzer | jump | loco | lodl | stol | addl | subl | jneg | jnze | call =>
    exact natCast_toNat_ofInt 12 v
  | insp | desp => exact natCast_toNat_ofInt 8 v
  | pshi | popi | push | pop | retn | swap | halt => rfl

/-- R122: `Encode(m, v)` is the word of the instruction with mnemonic `m` and operand `v`. -/
theorem encode_instr (m : Mnemonic) (v : Int) : encode (m.instr v) = encodeOperand m v := by
  rw [← encodeOperand_mnemonicOf, mnemonicOf_instr, operandOf_instr, encodeOperand_masked]

/-- Settles O5: the word is that of `m.instr v`, so it decodes to it (O1). -/
theorem assembledWordDecodesToMaskedOperand : Obligations.AssembledWordDecodesToMaskedOperand :=
  ⟨fun m v => ⟨m.instr v, encode_instr m v ▸ decodeOfEncode (m.instr v), mnemonicOf_instr m v, operandOf_instr m v⟩,
    encodeOperand_mnemonicOf⟩

/-! ## Reset and load (R41, R302, R303) -/

/-- Settles O7. -/
theorem resetMeetsInvariant : Obligations.ResetMeetsInvariant :=
  fun _ => State.Inv.resetWith

/-- R302: Memory after `loadProgram`: the words it keeps, copied into an empty Memory. -/
theorem loadProgram_memory (words : List Word) (s : State) :
    (loadProgram words s).memory = copyWords loadAddress (words.take memWords) [] := rfl

/-- R302: what each address reads as after `loadProgram`. -/
theorem memRead_loadProgram_eq (words : List Word) (s : State) (a : Nat) :
    memRead (loadProgram words s).memory a = if a < min words.length 4096 then words.getD a 0 else 0 := by
  have hlen : (words.take memWords).length = min words.length 4096 := by
    rw [List.length_take, memWords, Nat.min_comm]
  have hcopy := memRead_copyWords Memory.wf_nil loadAddress (words.take memWords)
    (by rw [hlen, loadAddress, memWords]; omega) a
  simp only [loadAddress, hlen, Nat.zero_le, true_and, Nat.zero_add, Nat.sub_zero, memRead_nil] at hcopy
  rw [loadProgram_memory, loadAddress, hcopy]
  split
  next ha =>
    rw [List.getD_eq_getElem?_getD, List.getD_eq_getElem?_getD, List.getElem?_take_of_lt (by rw [memWords]; omega)]
  next => rfl

/-- Settles O8: everything but Memory is `hostReset`'s, and Memory is the copy, whose reads are computed above. -/
theorem loadProgramPlacesWords : Obligations.LoadProgramPlacesWords :=
  fun words s => ⟨rfl, copyWords_wf Memory.wf_nil _ _, memRead_loadProgram_eq words s⟩

/-- R23: execute leaves `MAR` alone. -/
theorem runFetched_mar {s t : State} (h : runFetched s = .next t) : t.mar = s.mar := by
  obtain ⟨i, -, hexec⟩ | ⟨w, -, rfl⟩ := runFetched_cases h
  · exact (executeWritesOnlyNamedRegisters i s t hexec).1 .mar (by cases i <;> simp [writtenRegisters])
  · rfl

/-- R302: the caches after `loadProgram` are empty, so address 0 misses. -/
theorem loadProgram_ic_isHit (words : List Word) (s : State) (a : Nat) :
    (loadProgram words s).ic.isHit a = false :=
  Cache.empty_isHit _ a

/-- R303: the first fetch after `loadProgram` finds the first word in Memory. -/
theorem fetch_loadProgram_ir (words : List Word) {s : State} (hi : s.ic.Shaped) (hd : s.dc.Shaped) :
    (fetch (loadProgram words s)).ir = words.getD 0 0 := by
  have hshaped : (loadProgram words s).ic.Shaped :=
    (State.DataInv.resetWith (State.config_wellFormed hi hd)).icShaped
  have hread := hshaped.read_of_miss (loadProgram words s).memory (loadProgram_ic_isHit words s 0)
  refine hread.trans ((memRead_loadProgram_eq words s 0).trans ?_)
  cases words with
  | nil => rfl
  | cons w ws => exact if_pos (by simp)

/-- R303: the first fetch after `loadProgram` counts one miss. -/
theorem fetch_loadProgram_counts (words : List Word) (s : State) :
    (fetch (loadProgram words s)).ic.hitCount = 0 ∧ (fetch (loadProgram words s)).ic.missCount = 1 := by
  obtain ⟨hhits, hmisses, -⟩ := (loadProgram words s).ic.access_counts (loadProgram words s).memory 0
  rw [loadProgram_ic_isHit] at hhits hmisses
  exact ⟨hhits, hmisses⟩

/-- R89: execute moves neither counter of the instruction cache. -/
theorem runFetched_ic_counts {s t : State} (h : runFetched s = .next t) :
    t.ic.hitCount = s.ic.hitCount ∧ t.ic.missCount = s.ic.missCount := by
  obtain ⟨-, htotal, hhits, hmisses⟩ := (runFetched_accessed h).1
  rw [List.length_nil] at htotal
  omega

/-- Settles O9: the fetch at 0 is one miss that reads the first word; execute changes neither `MAR`, `IR` nor the
counters of the instruction cache. -/
theorem firstFetchAfterLoadMisses : Obligations.FirstFetchAfterLoadMisses := by
  intro words s hi hd
  obtain ⟨t, hrun⟩ := runFetched_next (fetch (loadProgram words s))
  have hpc : (loadProgram words s).pc.toNat < 4096 := Nat.zero_lt_succ 4095
  obtain ⟨hhits, hmisses⟩ := runFetched_ic_counts hrun
  obtain ⟨hnone, hone⟩ := fetch_loadProgram_counts words s
  exact ⟨t, (step_of_running (loadProgram_halted words s) hpc).trans hrun, runFetched_mar hrun,
    (runFetched_ir hrun).trans (fetch_loadProgram_ir words hi hd), hhits.trans hnone, hmisses.trans hone⟩

/-! ## The sizes of the caches (R5, R31) -/

/-- R5: a data cache of the old sizes keeps the machine's sizes. -/
theorem State.config_setDc {s : State} {c : Cache} (hlines : c.lines.length = s.dc.lines.length)
    (hblock : c.blockSize = s.dc.blockSize) : (s.setDc c).config = s.config := by
  simp only [State.config, State.setDc_ic, State.setDc_dc, hlines, hblock]

@[simp] theorem dRead_config (s : State) (a : Word) : (dRead s a).2.config = s.config := by
  rw [dRead_state]
  cases inRange a with
  | true => exact State.config_setDc (Cache.access_length ..) (Cache.access_blockSize ..)
  | false => rfl

@[simp] theorem dWrite_config (s : State) (a v : Word) : (dWrite s a v).config = s.config := by
  cases ha : inRange a with
  | true =>
    rw [dWrite_of_inRange s ha]
    exact State.config_setDc (s := s) (by simp) (by simp)
  | false => rw [dWrite_of_out s ha]

@[simp] theorem pushWord_config (s : State) (v : Word) : (pushWord s v).config = s.config :=
  dWrite_config (s.setSp (pushAddress s)) _ v

/-- R142: a fetch accesses the instruction cache, which keeps its sizes. -/
@[simp] theorem fetch_config (s : State) : (fetch s).config = s.config := by
  simp [State.config]

/-- R143: each arm is made of operations that keep the sizes. -/
theorem exec_config {i : Instr} {s t : State} (h : exec i s = .next t) : t.config = s.config := by
  cases i with
  | jpos _ | jzer _ | jneg _ | jnze _ =>
    obtain ⟨-, rfl⟩ | ⟨-, rfl⟩ := jumpIf_cases h
    · rfl
    · rfl
  | lodd _ | addd _ | subd _ | lodl _ | addl _ | subl _ | pop | retn =>
    exact Host.Outcome.next.inj h ▸ dRead_config s _
  | stod _ | stol _ => exact Host.Outcome.next.inj h ▸ dWrite_config s _ _
  | call _ | push => exact Host.Outcome.next.inj h ▸ pushWord_config s _
  | pshi => exact Host.Outcome.next.inj h ▸ (pushWord_config _ _).trans (dRead_config s _)
  | popi => exact Host.Outcome.next.inj h ▸ (dWrite_config _ _ _).trans (dRead_config s _)
  | loco _ | jump _ | insp _ | desp _ | swap | halt => exact Host.Outcome.next.inj h ▸ rfl

/-- Settles O23: fetch and every arm keep the sizes, and the other steps do not touch a cache. -/
theorem stepKeepsCacheSizes : Obligations.StepKeepsCacheSizes := by
  intro s t hstep
  obtain ⟨-, rfl⟩ | ⟨-, -, hrun⟩ | ⟨-, -, rfl⟩ := step_cases hstep
  · rfl
  · obtain ⟨i, -, hexec⟩ | ⟨w, -, rfl⟩ := runFetched_cases hrun
    · exact (exec_config hexec).trans (fetch_config s)
    · exact fetch_config s
  · rfl

/-! ## The end of a run (R261) -/

/-- R213: of what a running engine can fetch only HALT stops it. -/
theorem decode_of_runFetched_halted {s t : State} (hs : s.halted = false) (h : runFetched s = .next t)
    (ht : t.halted = true) : decode s.ir = .ok .halt := by
  obtain ⟨i, hi, hexec⟩ | ⟨w, -, rfl⟩ := runFetched_cases h
  · have hhalt := (exec_halted hexec).symm.trans ht
    rw [hs, Bool.false_or, decide_eq_true_eq] at hhalt
    exact hhalt ▸ hi
  · exact absurd (hs.symm.trans ht) Bool.false_ne_true

/-- Settles O25: a step that fetches ends the run by HALT alone, whose word is `0xFFFF` (O2); otherwise `IR` is the old
one, which is not `0xFFFF` in a running machine. -/
theorem endOfRunIsToldByIr : Obligations.EndOfRunIsToldByIr := by
  intro s t hinv hs hstep ht
  obtain ⟨hhalted, -⟩ | ⟨-, hpc, hrun⟩ | ⟨-, hpc, rfl⟩ := step_cases hstep
  · exact absurd (hs.symm.trans hhalted) Bool.false_ne_true
  · have hdec := decode_of_runFetched_halted (s := fetch s) hs hrun ht
    have hir : t.ir = 0xFFFF := (runFetched_ir hrun).trans (encodeOfDecode _ _ hdec).symm
    exact ⟨⟨fun _ => ⟨hpc, hdec⟩, fun _ => ⟨ht, hir⟩⟩,
      ⟨fun hend => absurd hir hend.2, fun hout => absurd hpc (Nat.not_lt.2 hout)⟩⟩
  · have hir : s.ir ≠ 0xFFFF := fun hir => Bool.false_ne_true (hs.symm.trans (hinv.haltWordHalts hir))
    exact ⟨⟨fun hend => absurd hend.2 hir, fun hin => absurd hin.1 (Nat.not_lt.2 hpc)⟩,
      ⟨fun _ => hpc, fun _ => ⟨ht, hir⟩⟩⟩

end Sys2Proof.Machine

namespace Sys2Proof.Machine

/-! ## Source text in the shown subset (U8) -/

/-- Every character of a piece is one of the text. -/
theorem mem_of_mem_splitAtChars {sep : Char → Bool} {s piece : List Char} {c : Char}
    (hpiece : piece ∈ splitAtChars sep s) (hc : c ∈ piece) : c ∈ s := by
  induction s generalizing piece with
  | nil =>
    rw [splitAtChars, List.mem_singleton] at hpiece
    exact absurd (hpiece ▸ hc) List.not_mem_nil
  | cons d ds ih =>
    rw [splitAtChars] at hpiece
    split at hpiece
    · obtain rfl | hrest := List.mem_cons.1 hpiece
      · exact absurd hc List.not_mem_nil
      · exact .tail _ (ih hrest hc)
    · split at hpiece
      · rw [List.mem_singleton] at hpiece
        obtain rfl := List.mem_singleton.1 (hpiece ▸ hc)
        exact .head _
      · next l ls hsplit =>
        obtain rfl | hrest := List.mem_cons.1 hpiece
        · obtain rfl | hl := List.mem_cons.1 hc
          · exact .head _
          · exact .tail _ (ih (hsplit ▸ .head _) hl)
        · exact .tail _ (ih (hsplit ▸ .tail _ hrest) hc)

/-- R224: a line without the comment marker is left as it is. -/
theorem stripComment_of_not_mem {p : AsmParams} {line : List Char} (h : p.commentMarker ∉ line) :
    stripComment p line = line :=
  List.takeWhile_eq_self_iff.2 fun _ hc => bne_iff_ne.2 (ne_of_mem_of_not_mem hc h)

/-- R223, R224: no line of a text without the comment marker has a comment. -/
theorem stripComment_sourceLine {p : AsmParams} {src line : List Char} (h : p.commentMarker ∉ src)
    (hline : line ∈ sourceLines src) : stripComment p line = line :=
  stripComment_of_not_mem (mt (mem_of_mem_splitAtChars hline) h)

/-- D12: pass 1 depends on the parameters through the comment marker alone, and not on a marker that does not occur. -/
theorem pass1_congr_of_no_comment {p q : AsmParams} {src : List Char} (hp : p.commentMarker ∉ src)
    (hq : q.commentMarker ∉ src) : pass1 p src = pass1 q src := by
  refine List.foldl_ext _ _ _ fun st line hline => ?_
  simp only [pass1Line, stripComment_sourceLine hp hline, stripComment_sourceLine hq hline]

/-- R228: an unsigned decimal literal is a literal of the default syntax, of the same value: `x` is no decimal digit. -/
theorem unsignedLiteral_of_decimal {t : List Char} {n : Nat} (h : number decDigit 10 t = some n) :
    unsignedLiteral t = some n := by
  unfold unsignedLiteral
  split
  next ds => exact nomatch (show none = some n from h)
  next ds => exact nomatch (show none = some n from h)
  next => exact h

/-- R228: and so under an optional `-`, which is no decimal digit either. -/
theorem signedLiteral_of_decimal {t : List Char} {n : Nat} (h : number decDigit 10 t = some n) :
    signedLiteral t = some (n : Int) := by
  unfold signedLiteral
  split
  next ds => exact nomatch (show none = some n from h)
  next =>
    rw [unsignedLiteral_of_decimal h]
    rfl

/-- R225, R228: a letter or `_` is no decimal digit. -/
theorem decDigit_of_isLabelStart {c : Char} (h : isLabelStart c = true) : decDigit c = none := by
  refine if_neg fun hdigit => ?_
  obtain halpha | hunderscore := Bool.or_eq_true_iff.1 h
  · simp only [Char.isAlpha, Char.isUpper, Char.isLower, Char.isDigit, Bool.or_eq_true, Bool.and_eq_true,
      decide_eq_true_eq, ge_iff_le, UInt32.le_iff_toNat_le, Char.reduceVal, UInt32.reduceToNat] at halpha hdigit
    omega
  · rw [beq_iff_eq.1 hunderscore] at hdigit
    exact absurd hdigit (by decide)

/-- R225, R228: no admitted label name is an integer literal. -/
theorem signedLiteral_of_label {t : List Char} (h : labelWellFormed t = true) : signedLiteral t = none := by
  cases t with
  | nil => exact absurd h Bool.false_ne_true
  | cons c cs =>
    have hstart : isLabelStart c = true := (Bool.and_eq_true_iff.1 h).1
    have hnumber : number decDigit 10 (c :: cs) = none := by
      simp [number, digitsFrom, decDigit_of_isLabelStart hstart]
    have hzero : c ≠ '0' := by
      rintro rfl
      exact absurd hstart (by decide)
    have hminus : c ≠ '-' := by
      rintro rfl
      exact absurd hstart (by decide)
    simp [signedLiteral, unsignedLiteral, hzero, hminus, hnumber]

section Literals

variable {p q : AsmParams} {table : List (List Char × Nat)} {t : List Char}
variable (hp : p.intSyntax = .unsignedDecimal) (hq : q.intSyntax = .decimalAndHex)

include hq

/-- D13: a label with an admitted name is no literal of the default syntax. -/
theorem intLiteral_of_label (htable : ∀ e ∈ table, labelWellFormed e.1 = true) {a : Nat}
    (h : lookupLabel table t = some a) : intLiteral q t = none := by
  obtain ⟨e, he, -⟩ := Option.map_eq_some_iff.1 h
  have hname : e.1 = t := by simpa using List.find?_some he
  simp only [intLiteral, hq, signedLiteral_of_label (hname ▸ htable e (List.mem_of_find?_eq_some he))]

include hp

/-- D13: a literal of the strict reading is one of the default syntax, of the same value. -/
theorem intLiteral_of_strict {v : Int} (h : intLiteral p t = some v) : intLiteral q t = some v := by
  simp only [intLiteral, hp] at h
  cases hn : number decDigit 10 t with
  | none =>
    rw [hn] at h
    exact nomatch h
  | some n =>
    rw [hn] at h
    obtain rfl := Option.some.inj h
    simp only [intLiteral, hq, signedLiteral_of_decimal hn]

/-- R234: an operand that resolves under the strict reading resolves alike under the default syntax. -/
theorem resolveOperand_of_strict {v : Int} (h : resolveOperand p table t = some v) :
    resolveOperand q table t = some v := by
  unfold resolveOperand at h ⊢
  split at h
  next => exact h
  next => exact intLiteral_of_strict hp hq h

/-- R233, R234: an instruction that assembles under the strict reading assembles alike under the default syntax. -/
theorem assembleInstr_of_strict {m : Mnemonic} {opd : Option (List Char)} {w : Word}
    (h : assembleInstr p table m opd = .word w) : assembleInstr q table m opd = .word w := by
  by_cases hop : m.takesOperand = true
  · cases opd with
    | none => exact nomatch (assembleInstr_missing hop).symm.trans h
    | some t =>
      simp only [assembleInstr, hop, if_true] at h ⊢
      split at h
      next v hv => rwa [resolveOperand_of_strict hp hq hv]
      next => exact nomatch h
  · rw [assembleInstr_of_no_operand hop] at h ⊢
    exact h

/-- R236: a datum that assembles under the strict reading assembles alike under the default syntax, a label because its
name is no literal there either. -/
theorem assembleData_of_strict (htable : ∀ e ∈ table, labelWellFormed e.1 = true) {w : Word}
    (h : assembleData p table t = .word w) : assembleData q table t = .word w := by
  unfold assembleData at h ⊢
  split at h
  next v hv => rwa [intLiteral_of_strict hp hq hv]
  next =>
    split at h
    next a ha => simpa only [intLiteral_of_label hq htable ha, ha] using h
    next => exact nomatch h

/-- R232: a body that assembles under the strict reading assembles alike under the default syntax. -/
theorem assembleLine_of_strict (htable : ∀ e ∈ table, labelWellFormed e.1 = true) {body : List Char} {w : Word}
    (h : assembleLine p table body = .word w) : assembleLine q table body = .word w := by
  unfold assembleLine at h ⊢
  split at h
  next => exact nomatch h
  next =>
    split at h
    next => exact assembleInstr_of_strict hp hq h
    next => exact assembleData_of_strict hp hq htable h

end Literals

/-- R232: pass 2 depends on the parameters through what each body gives. -/
theorem pass2From_congr {p q : AsmParams} {table : List (List Char × Nat)} {bodies : List (List Char)}
    (h : ∀ b ∈ bodies, assembleLine p table b = assembleLine q table b) (k : Nat) :
    pass2From p table k bodies = pass2From q table k bodies := by
  induction bodies generalizing k with
  | nil => rfl
  | cons b bs ih =>
    obtain ⟨hb, hbs⟩ := List.forall_mem_cons.1 h
    simp only [pass2From, hb, ih hbs]

/-- R232, R237: without errors every body gives a word. -/
theorem assembleLine_of_no_errors {p : AsmParams} {table : List (List Char × Nat)} {bodies : List (List Char)}
    {k : Nat} (herr : (pass2From p table k bodies).errors = []) {b : List Char} (hb : b ∈ bodies) :
    ∃ w, assembleLine p table b = .word w := by
  have hmem := List.mem_map_of_mem (f := assembleLine p table) hb
  rw [map_assembleLine_of_no_errors herr] at hmem
  obtain ⟨w, -, hw⟩ := List.mem_map.1 hmem
  exact ⟨w, hw.symm⟩

/-- U8: of `sourceAdmitted`, what the choice of comment marker and literal syntax turns on. -/
theorem no_comment_and_labels_of_admitted {p : AsmParams} {src : List Char} (h : sourceAdmitted p src = true) :
    p.commentMarker ∉ src ∧ ∀ e ∈ (pass1 p src).labelTable, labelWellFormed e.1 = true := by
  simp only [sourceAdmitted, Bool.and_eq_true, Bool.not_eq_true', List.all_eq_true] at h
  obtain ⟨⟨⟨⟨-, hcomment⟩, hlabels⟩, -⟩, -⟩ := h
  exact ⟨by simpa using hcomment, hlabels⟩

/-- Settles O55: pass 1 strips no comment under either marker, and each body gives a word, which it also gives under the
default syntax. -/
theorem admittedSourceNeedsNoDecision : Obligations.AdmittedSourceNeedsNoDecision := by
  intro c d src hadmitted herr hd
  obtain ⟨hc, hlabels⟩ := no_comment_and_labels_of_admitted hadmitted
  have hd' : d ∉ src := by simpa using hd
  unfold compileWith at herr ⊢
  rw [pass1_congr_of_no_comment hd' hc]
  refine pass2From_congr (fun b hb => ?_) 1
  obtain ⟨w, hw⟩ := assembleLine_of_no_errors herr hb
  rw [hw, assembleLine_of_strict rfl rfl hlabels hw]

end Sys2Proof.Machine
